-- ==== Sys2Proof/Config.lean ====
section
/-! DEFINITION. What an implementation fixes. The block has one configuration parameter, `M` (spec/00_scope.md R5), a static
parameter of an instance (R6): it stands in `State.messageLength`, so that every statement speaks of every admitted `M`. The spec
leaves no value open, so there is no free value here. -/

namespace Sys2Proof

/-- R5: `M = messageLength`, "bits per chunk", "defaulting to 8 in the reference tool": the instance `State.reset` describes. -/
def Config.defaultMessageLength : Nat := 8

end Sys2Proof
end

