-- ==== Sys2Proof/Word.lean ====
section
/-! DEFINITION. Bit sequences, the only data the block computes on (spec/00_scope.md R9, R10), and their plainest arithmetic.
A sequence is a list of booleans, index 0 first and least significant (R9); its integers are mathematical naturals (R107). -/

namespace Sys2Proof

/-- R9: "an ordered, fixed-length sequence of bits, index 0 = least-significant/first position". -/
abbrev BitSeq := List Bool

/-- R10: `val(s)`, the sum over `i` of `s[i] * 2^i`. -/
def val : BitSeq → Nat
  | [] => 0
  | b :: s => b.toNat + 2 * val s

/-- R10: `seq_n(v)`, the sequence of length `n` with value `v` (for `v < 2^n`; a larger `v` loses its higher digits). -/
def seq : Nat → Nat → BitSeq
  | 0, _ => []
  | n + 1, v => (v % 2 == 1) :: seq n (v / 2)

/-- R11, notation: `zeros(n)`. -/
def zeros (n : Nat) : BitSeq := List.replicate n false

end Sys2Proof
end

