-- ==== Sys2Proof/Machine/Layout.lean ====
section
/-! DEFINITION. The parameters of an instance (spec/00_scope.md R5, R7), the two helpers they rest on (spec/40_helpers.md R100,
R104) and the position map of a codeword (spec/20_memory.md R61, R62, R63, R70). All integers are mathematical naturals (R107). -/

namespace Sys2Proof.Machine

/-- How many binary digits of `x` are 1 (digit `x` and every higher digit of `x` are 0, so `range x` holds them all). -/
def oneDigits (x : Nat) : Nat := (List.range x).countP x.testBit

/-- R100: "true iff `x != 0` and has exactly one set bit". -/
def isPowerOfTwo (x : Nat) : Bool := x != 0 && oneDigits x == 1

/-- R104: the "smallest `K` such that `length <= 2^K - 1`"; the search ends, since `length <= 2^length - 1`. -/
def minimumCheckBits (length : Nat) : Nat :=
  ((List.range (length + 1)).find? fun k => decide (length ≤ 2 ^ k - 1)).getD length

/-- R5: `K = minimumCheckBits(M)`, the number of check bits. -/
def checkCount (M : Nat) : Nat := minimumCheckBits M

/-- R5: `N = K + M + 1`, the codeword length. -/
def codeLength (M : Nat) : Nat := checkCount M + M + 1

/-- R7: `Admitted(M)`. An instance is well formed only if it holds; any other `M` is refused (D1, D2). -/
abbrev Admitted (M : Nat) : Prop := 1 ≤ M ∧ checkCount M + M + 1 ≤ 2 ^ checkCount M

/-- R62: the three roles of a position. -/
inductive Role where
  /-- Position 0, the global parity bit `G`. -/
  | globalParity
  /-- A power of two: a check bit. -/
  | check
  /-- Any other position: a message bit. -/
  | message
  deriving DecidableEq, Repr

/-- R62: the role of position `p`. -/
def role (p : Nat) : Role :=
  if p = 0 then .globalParity else if isPowerOfTwo p then .check else .message

/-- The positions below `n` whose role is `Message`, ascending (R62, R63). -/
def messagePositions (n : Nat) : List Nat := (List.range n).filter fun p => role p == .message

/-- The positions below `n` whose role is `Check`, ascending (R62). -/
def checkPositions (n : Nat) : List Nat := (List.range n).filter fun p => role p == .check

/-- R63: `slot(t)`, the `t`-th message position in ascending order, counting from 0; it does not depend on `M`. Below `2t + 4`
there are more than `t` message positions. -/
def slot (t : Nat) : Nat := (messagePositions (2 * t + 4)).getD t 0

/-- R63: `chk(t) = 2^t`, the `t`-th check position. -/
def chk (t : Nat) : Nat := 2 ^ t

/-- R70, R134: position `j` is in the parity group of check position `i`. -/
def inGroup (i j : Nat) : Bool := j != i && (i &&& j) != 0

/-- R70: `group(i) = { j : 0 <= j < N, j != i, (i & j) != 0 }` with `N = n`, ascending. -/
def group (n i : Nat) : List Nat := (List.range n).filter (inGroup i)

end Sys2Proof.Machine
end

