-- ==== Sys2Proof/Syntax.lean ====
section
/-! DEFINITION. The operations of the block (spec/30_encoding.md R80, R84; spec/opcode_table.json): the whole instruction set. -/

namespace Sys2Proof

/-- R80: a request is one of two things. The operand of each has an exact width that depends on the instance (R81, R82);
`WellFormed` states it. -/
inductive Instr where
  /-- `ENC m` (R130): encode the message `m`, `M` bits. -/
  | enc (msg : BitSeq)
  /-- `DEC c` (R150): decode the received codeword `c`, `N` bits. -/
  | dec (cw : BitSeq)
  deriving DecidableEq, Repr

/-- Why a sequence of bits is not a request word of an instance (R85: only its width can be wrong). -/
inductive DecodeReject where
  /-- No bit at all: not even the operation select `op`. -/
  | empty
  /-- Fewer operand bits than the format says (R81: `M`; R82: `N`). -/
  | tooShort
  /-- More operand bits than the format says. -/
  | tooLong
  deriving DecidableEq, Repr

end Sys2Proof
end

