-- ==== Sys2Proof/WellFormed.lean ====
section
/-! DEFINITION. Which operations are requests of an instance: the operand has exactly the width of its port (spec/30_encoding.md
R81, R82; spec/42_decoder.md R156). Nothing else can be wrong with a request (R85). -/

namespace Sys2Proof

/-- How many operand bits the instance `M` takes: `M` for `ENC` (R81), `N` for `DEC` (R82). -/
def operandWidth (M : Nat) : Instr → Nat
  | .enc _ => M
  | .dec _ => Machine.codeLength M

/-- The operand bits a request carries. -/
def Instr.operand : Instr → BitSeq
  | .enc msg => msg
  | .dec cw => cw

/-- R80: `i` is a request of the instance `M`: its operand has exactly the port's width. -/
abbrev WellFormed (M : Nat) (i : Instr) : Prop := i.operand.length = operandWidth M i

end Sys2Proof
end

