-- ==== Sys2Proof/Decode.lean ====
section
/-! DEFINITION. Request words (spec/30_encoding.md R80 to R86): bit 0 is the operation select `op`, the operand stands from bit 1
up, bit for bit (R83). Decoding is total on any sequence of bits and rejects only a wrong width, by name. -/

namespace Sys2Proof

/-- Splits off the first `n` bits; rejects a shorter sequence by name. -/
def takeOperand (n : Nat) (s : BitSeq) : Except DecodeReject (BitSeq × BitSeq) :=
  if n ≤ s.length then .ok (s.take n, s.drop n) else .error .tooShort

/-- R86: reads one request off the front of a sequence of bits and leaves the rest: bit 0 tells which format follows, 0 means `M`
more bits (R81), 1 means `N` more bits (R82). -/
def decodePrefix (M : Nat) : BitSeq → Except DecodeReject (Instr × BitSeq)
  | [] => .error .empty
  | false :: s =>
    match takeOperand M s with
    | .ok (msg, rest) => .ok (.enc msg, rest)
    | .error e => .error e
  | true :: s =>
    match takeOperand (Machine.codeLength M) s with
    | .ok (cw, rest) => .ok (.dec cw, rest)
    | .error e => .error e

/-- R84, R85: the operation a request word of the instance `M` stands for. "A word of the wrong width is not a request". -/
def decode (M : Nat) (word : BitSeq) : Except DecodeReject Instr :=
  match decodePrefix M word with
  | .ok (i, []) => .ok i
  | .ok (_, _ :: _) => .error .tooLong
  | .error e => .error e

/-- R81, R82: the request word of an operation: `op` at bit 0 (0 = `ENC`, 1 = `DEC`), the operand from bit 1 up. -/
def encode : Instr → BitSeq
  | .enc msg => false :: msg
  | .dec cw => true :: cw

/-- The bits of a table word `w` given with `nbits` bits, on the instance `M`: bits at `nbits` and above are 0, up to the longest
request (`N + 1` bits); padding to whole bytes above that is no part of a request (log entry 7). -/
def tableBits (M nbits w : Nat) : BitSeq := seq (Machine.codeLength M + 1) (w % 2 ^ nbits)

/-- The request word that stands at the front of the table word `w`, at its own exact width (`M + 1` or `N + 1` bits, R86). -/
def tableRequestWord (M nbits w : Nat) : BitSeq :=
  match decodePrefix M (tableBits M nbits w) with
  | .ok (i, _) => (tableBits M nbits w).take (operandWidth M i + 1)
  | .error _ => tableBits M nbits w

/-- The operation the decoder reads from a table word, on the instance `State.reset` describes. -/
def decodeTableWord (nbits w : Nat) : Option Instr :=
  match decode Config.defaultMessageLength (tableRequestWord Config.defaultMessageLength nbits w) with
  | .ok i => some i
  | .error _ => none

end Sys2Proof
end

