-- ==== Sys2Proof/Machine/State.lean ====
section
/-! DEFINITION. The state of one instance (spec/10_state.md): the two result latches (R32, R33), and beside them the instance's
constant `M` (R31) and the host's side of a run (spec/70_reset_and_hazards.md R212): what it still issues and what its reads
returned. Call-scoped state (R38) is not here: it does not exist between operations (R40). -/

namespace Sys2Proof.Machine

/-- Why the machine stops with no next state. -/
inductive Fault where
  /-- Raised by every sequence access out of range (R184), in the operations over bit sequences. Safe: no latch is written and
  there is no result; on an admitted `M` with operands of the port widths it is unreachable. -/
  | indexFault
  /-- Raised when the host reads a latch field that holds no value (R35, R185); "the model gives the read no value", and such a
  run has no end state (R212). Safe. -/
  | hostReadOfNoValue
  deriving DecidableEq, Repr

/-- Why an operation has no meaning at all. -/
inductive Refusal where
  /-- Raised by an arm of `exec` for an operation that has no meaning yet (none is left). Safe. -/
  | notModelled (mnemonic : String)
  /-- Raised by a step, or an operation, of an instance whose `M` is not admitted: "a model refuses to build an instance with a
  non-admitted `M`" (R7, U1). Safe. -/
  | instanceNotAdmitted
  /-- Raised when the host presents a word that is no request of the instance: "a word of the wrong width is not a request and
  cannot be presented" (R85, U4). Safe. -/
  | notARequest (why : DecodeReject)
  /-- Raised by an operation whose operand has not the port's exact width (R81, R82, R156, U4); no decoded request word leads
  here. Safe. -/
  | operandWidth
  deriving DecidableEq, Repr

/-- R34: `DEC_RES.status`; three constructors and no fourth (U6). -/
inductive Status where
  /-- Code 0. -/
  | ok
  /-- Code 1, `UncorrectableError::SyndromeOutOfRange`. -/
  | syndromeOutOfRange
  /-- Code 2, `UncorrectableError::GlobalParityMismatch`. -/
  | globalParityMismatch
  deriving DecidableEq, Repr

/-- R33: the encoder result latch `ENC_RES`. A field that holds no value is `none`, "never zero" (R35). -/
structure EncLatch where
  valid : Bool
  len : Option Nat
  data : Option BitSeq
  deriving DecidableEq, Repr

/-- R33: the decoder result latch `DEC_RES`. A field that holds no value is `none`, "never zero" (R35). -/
structure DecLatch where
  valid : Bool
  status : Option Status
  len : Option Nat
  data : Option BitSeq
  deriving DecidableEq, Repr

/-- R87: the two latches, as `RD` names them. -/
inductive Latch where
  | encRes
  | decRes
  deriving DecidableEq, Repr

/-- R33, R39: the latch fields the host may read. -/
inductive Field where
  | encValid
  | encLen
  | encData
  | decValid
  | decStatus
  | decLen
  | decData
  deriving DecidableEq, Repr

/-- What a read of a field returns. -/
inductive ReadValue where
  /-- A `valid` bit. -/
  | bit (b : Bool)
  /-- A `len`. -/
  | number (n : Nat)
  /-- A `data` sequence. -/
  | bits (s : BitSeq)
  /-- A `status`. -/
  | status (st : Status)
  deriving DecidableEq, Repr

/-- What the host can do to the instance, one at a time (R36, R39, R200, R212). -/
inductive HostEvent where
  /-- Issue the request serialised as `word` (R80). -/
  | request (word : BitSeq)
  /-- Read one latch field (R39). -/
  | readField (f : Field)
  /-- `RD ENC_RES` or `RD DEC_RES` (R87): read every field of a latch. -/
  | readLatch (l : Latch)
  /-- Apply reset (R200); `cut` is the word of a request that had not completed when reset was applied, if there was one. -/
  | reset (cut : Option BitSeq)
  deriving DecidableEq, Repr

/-- One instance and the run it is in. -/
structure State where
  /-- `M` (R5): a constant of the instance, which no step writes (R6, R31). -/
  messageLength : Nat
  /-- `ENC_RES` (R32). -/
  encRes : EncLatch
  /-- `DEC_RES` (R32). -/
  decRes : DecLatch
  /-- What the host still does, first event first (R212; the model's own field, log entry 3). -/
  program : List HostEvent
  /-- What the host's reads returned, oldest first (R212; the model's own field, log entry 3). -/
  reads : List (Field × ReadValue)
  deriving DecidableEq, Repr

/-- R40: `ENC_RES` after reset. -/
def EncLatch.reset : EncLatch := { valid := false, len := none, data := none }

/-- R40: `DEC_RES` after reset. -/
def DecLatch.reset : DecLatch := { valid := false, status := none, len := none, data := none }

/-- The instance with parameter `M` right after reset (R40, R200), with nothing issued by the host yet. -/
def State.resetOf (M : Nat) : State :=
  { messageLength := M, encRes := EncLatch.reset, decRes := DecLatch.reset, program := [], reads := [] }

/-- R7: building an instance; "a model refuses to build an instance with a non-admitted `M`". -/
def State.build (M : Nat) : Option State := if Admitted M then some (State.resetOf M) else none

/-- The default instance (R5: `M = 8`) right after reset (R40). -/
def State.reset : State := State.resetOf Config.defaultMessageLength

end Sys2Proof.Machine
end

