-- ==== Sys2Proof/Machine/Ops.lean ====
section
/-! DEFINITION. The named operations over bit sequences (the primitives of spec/00_scope.md section 5) and the one operation that
resets an instance (spec/10_state.md R40). Every sequence access is bounds-checked (spec/60_exceptions.md R184). There is no trap
entry and no return from one to share (R188, R189): an error is a value that `writeDecRes` writes. -/

namespace Sys2Proof.Machine

/-- Read `s[i]`; `i >= len(s)` is an `IndexFault` (R184). -/
def readBit (s : BitSeq) (i : Nat) : Except Fault Bool :=
  match s[i]? with
  | some b => .ok b
  | none => .error .indexFault

/-- `s[i] <- b`; `i >= len(s)` is an `IndexFault` (R184). -/
def writeBit (s : BitSeq) (i : Nat) (b : Bool) : Except Fault BitSeq :=
  if i < s.length then .ok (s.set i b) else .error .indexFault

/-- `s[i] <- not s[i]`. -/
def toggleBit (s : BitSeq) (i : Nat) : Except Fault BitSeq := do
  let b ← readBit s i
  writeBit s i (!b)

/-- `is_zero(s)`: every bit is 0 (true of the empty sequence). -/
def isZero (s : BitSeq) : Bool := s.all fun b => !b

/-- `popcount(s)`: the number of set bits. -/
def popcount (s : BitSeq) : Nat := s.countP fun b => b

/-- `parity(s) = popcount(s) mod 2`, as a bit. -/
def parity (s : BitSeq) : Bool := popcount s % 2 == 1

/-- `zext_n(s)`: the low `len(s)` bits are `s`, the others up to `n` are 0 (for `n >= len(s)`). -/
def zext (n : Nat) (s : BitSeq) : BitSeq := s ++ zeros (n - s.length)

/-- `a xor b`, bitwise, of two sequences of equal length. -/
def xorSeq (a b : BitSeq) : BitSeq := List.zipWith Bool.xor a b

/-- R40, R200: reset of an instance. Both latches are as reset leaves them; `M` does not change; the host's own record of its run
is the host's and stays. -/
def resetInstance (s : State) : State := { s with encRes := EncLatch.reset, decRes := DecLatch.reset }

end Sys2Proof.Machine
end

