-- ==== Sys2Proof/Machine/Flags.lean ====
section
/-! DEFINITION. The result latches' writes, and with them the only status bits of the block, `ENC_RES.valid`, `DEC_RES.valid` and
`DEC_RES.status` (spec/10_state.md R36, R41): they are set only here and by reset. All fields of a latch are written together (R33). -/

namespace Sys2Proof.Machine

/-- R180: the two kinds of `UncorrectableError`. -/
inductive DecodeError where
  /-- R181: the syndrome names no position of the codeword. -/
  | syndromeOutOfRange
  /-- R182: the word after correction fails the global-parity check. -/
  | globalParityMismatch
  deriving DecidableEq, Repr

/-- What `decode` returns (R150): "a tagged union/result type with exactly two variants" (R34). -/
inductive DecodeResult where
  /-- `Ok(r)`. -/
  | ok (r : BitSeq)
  /-- `Err(kind)`. -/
  | err (kind : DecodeError)
  deriving DecidableEq, Repr

/-- R34, R181, R182: the status a returned result has. -/
def resultStatus : DecodeResult → Status
  | .ok _ => .ok
  | .err .syndromeOutOfRange => .syndromeOutOfRange
  | .err .globalParityMismatch => .globalParityMismatch

/-- R34: the codes of `DEC_RES.status` at the port, 2 bits; 3 is never produced. -/
def statusCode : Status → BitVec 2
  | .ok => 0
  | .syndromeOutOfRange => 1
  | .globalParityMismatch => 2

/-- R34: the text the source attaches to an error kind. -/
def errorText : DecodeError → String
  | .syndromeOutOfRange => "syndrome out of range"
  | .globalParityMismatch => "global parity mismatch"

/-- R36: `ENC_RES <- { valid = 1, len = len(r), data = zext_N(r) }`; nothing else changes. -/
def writeEncRes (s : State) (r : BitSeq) : State :=
  { s with encRes := { valid := true, len := some r.length, data := some (zext (codeLength s.messageLength) r) } }

/-- R36: `DEC_RES <-` the outcome of a `DEC`; on an error `len` and `data` hold no value (R35); nothing else changes. -/
def writeDecRes (s : State) (res : DecodeResult) : State :=
  match res with
  | .ok r =>
    { s with decRes := { valid := true, status := some (resultStatus res), len := some r.length,
                         data := some (zext (codeLength s.messageLength) r) } }
  | .err _ => { s with decRes := { valid := true, status := some (resultStatus res), len := none, data := none } }

end Sys2Proof.Machine
end

