-- ==== Sys2Proof/Machine/Helpers.lean ====
section
/-! DEFINITION. The remaining helper functions of spec/40_helpers.md, pure functions that no request invokes alone: the layout
helpers `extractCheckBits` and `extractMessageBits` that the decoder uses, and `bitsToBytes`, `minimumBytes` and `concat`, which only
the host's glue uses (R2). `isPowerOfTwo` and `minimumCheckBits` stand in Layout.lean. -/

namespace Sys2Proof.Machine

/-- R101: "integer division by 8 (no rounding)". -/
def bitsToBytes (bits : Nat) : Nat := bits / 8

/-- R102: "`bitCount/8` rounded **up** to the next whole byte when `bitCount` is not a multiple of 8; else exact". -/
def minimumBytes (bitCount : Nat) : Nat := if bitCount % 8 = 0 then bitCount / 8 else bitCount / 8 + 1

/-- R103: `a`'s bits at the lower indices, `b`'s above (D12); an all-zero `a` is dropped, its length included. -/
def concat (a b : BitSeq) : BitSeq := if isZero a then b else a ++ b

/-- One position of a scan that collects the bits at the positions of role `rl`: `r[t] <- cw[p]; t <- t + 1`. -/
def collectAt (rl : Role) (cw : BitSeq) (acc : BitSeq × Nat) (p : Nat) : Except Fault (BitSeq × Nat) :=
  if role p = rl then do
    let b ← readBit cw p
    let r ← writeBit acc.1 acc.2 b
    pure (r, acc.2 + 1)
  else pure acc

/-- The bits of `cw` at the positions of role `rl`, in ascending order of position, into a sequence of length `n`. -/
def collectBits (rl : Role) (n : Nat) (cw : BitSeq) : Except Fault BitSeq := do
  let acc ← (List.range cw.length).foldlM (collectAt rl cw) (zeros n, 0)
  pure acc.1

/-- R105: "collects bits at power-of-two positions in ascending order into a sequence of length
`minimumCheckBits(messageLength)`". -/
def extractCheckBits (cw : BitSeq) (M : Nat) : Except Fault BitSeq := collectBits .check (minimumCheckBits M) cw

/-- R106: "collects bits at positions that are neither 0 nor a power of two, in ascending order, into a sequence of length
`messageLength`". -/
def extractMessageBits (cw : BitSeq) (M : Nat) : Except Fault BitSeq := collectBits .message M cw

end Sys2Proof.Machine
end

