-- ==== Sys2Proof/Machine/Operands.lean ====
section
/-! DEFINITION. The operand of a request, as an operation takes it from its port (spec/30_encoding.md R81, R82, R83): the instance
must be admitted (spec/00_scope.md R7), the operand of exactly the port's width (spec/42_decoder.md R156), and is read whole (R66). -/

namespace Sys2Proof.Machine

/-- An operand of a port `width` bits wide on the instance of `s`. -/
def portOperand (s : State) (width : Nat) (x : BitSeq) : Except Refusal BitSeq :=
  if ¬ Admitted s.messageLength then .error .instanceNotAdmitted
  else if x.length = width then .ok x
  else .error .operandWidth

/-- R81: the `msg` field, `M` bits. -/
def messageOperand (s : State) (msg : BitSeq) : Except Refusal BitSeq := portOperand s s.messageLength msg

/-- R82: the `cw` field, `N` bits. -/
def codewordOperand (s : State) (cw : BitSeq) : Except Refusal BitSeq := portOperand s (codeLength s.messageLength) cw

end Sys2Proof.Machine
end

