-- ==== Sys2Proof/Machine/Decoder.lean ====
section
/-! DEFINITION. The decoder unit: the operation `DEC` (spec/42_decoder.md R150), its steps, one definition each, and its state
machine (R162). -/

namespace Sys2Proof.Machine

/-- R162: the states of the decoder's call-scoped state machine. -/
inductive FsmState where
  | start
  | extractChecks
  | recomputeSyndrome
  | noError
  | correctableSingleBit
  | uncorrectableRange
  | globalParityCheck
  | success
  | uncorrectableParityMismatch
  deriving DecidableEq, Repr

/-- R162: the transition table. `zero` is `is_zero(c)`, `S` the syndrome, `n` the codeword length, `parityOk` is `primeG = W[0]`;
a terminal state has no successor. -/
def fsmNext (zero : Bool) (S n : Nat) (parityOk : Bool) : FsmState → Option FsmState
  | .start => some (if zero then .success else .extractChecks)
  | .extractChecks => some .recomputeSyndrome
  | .recomputeSyndrome =>
    some (if S = 0 then .noError else if S < n then .correctableSingleBit else .uncorrectableRange)
  | .noError => some .globalParityCheck
  | .correctableSingleBit => some .globalParityCheck
  | .globalParityCheck => some (if parityOk then .success else .uncorrectableParityMismatch)
  | .success => none
  | .uncorrectableRange => none
  | .uncorrectableParityMismatch => none

/-- R162: the states passed through from `q` on, at most `n` transitions, stopping at a terminal state. -/
def fsmPath (next : FsmState → Option FsmState) : Nat → FsmState → List FsmState
  | 0, q => [q]
  | n + 1, q =>
    match next q with
    | some q' => q :: fsmPath next n q'
    | none => [q]

/-- R38: the call-scoped state of one `DEC`, as it stands when the operation ends; a value the operation did not compute on its
path is `none`. It is discarded: the operation's outcome is `result` alone. -/
structure DecodeCall where
  /-- The states `fsm` went through, in order (R162). -/
  fsm : List FsmState
  /-- `originalCheckBits` (R152). -/
  orig : Option BitSeq
  /-- `primeCheckBits` (R153). -/
  prime : Option BitSeq
  /-- The syndrome `S` (R154). -/
  syndrome : Option Nat
  /-- The working copy `W` after the correction step (R155). -/
  working : Option BitSeq
  /-- `primeG` after its adjustment (R157). -/
  primeG : Option Bool
  /-- What `decode` returns. -/
  result : DecodeResult
  deriving DecidableEq, Repr

/-- R153, one position of the parity loop of accumulator `t`: it reads the received word `c` only. -/
def recomputeAt (c : BitSeq) (t : Nat) (prime : BitSeq) (j : Nat) : Except Fault BitSeq :=
  if inGroup (chk t) j then do
    let b ← readBit c j
    if b then toggleBit prime t else pure prime
  else pure prime

/-- R153: `recompute(c)`, the `k` check bits of the received word, check positions ascending. -/
def recompute (n k : Nat) (c : BitSeq) : Except Fault BitSeq :=
  (List.range k).foldlM (fun prime t => (List.range n).foldlM (recomputeAt c t) prime) (zeros k)

/-- R154: `S = val(prime xor orig)`. -/
def syndromeOf (prime orig : BitSeq) : Nat := val (xorSeq prime orig)

/-- R157: `primeG`, the parity of the whole word, inverted when the word's bit 0 is set. -/
def adjustedParity (w : BitSeq) : Except Fault Bool := do
  let g ← readBit w 0
  pure (if g then !parity w else parity w)

/-- R157, R159: the global-parity check on the working copy `w`, and the extraction when it holds. `call` is the operation so far. -/
def finishCall (M : Nat) (call : DecodeCall) (w : BitSeq) : Except Fault DecodeCall := do
  let primeG ← adjustedParity w
  let g ← readBit w 0
  if primeG != g then
    pure { call with fsm := call.fsm ++ [.globalParityCheck, .uncorrectableParityMismatch], working := some w,
                     primeG := some primeG, result := .err .globalParityMismatch }
  else do
    let r ← extractMessageBits w M
    pure { call with fsm := call.fsm ++ [.globalParityCheck, .success], working := some w,
                     primeG := some primeG, result := .ok r }

/-- R155: classification by the syndrome `S`, tested in the rule's order, and the correction in a working copy. -/
def classifyCall (M : Nat) (c orig prime : BitSeq) (S : Nat) : Except Fault DecodeCall :=
  let call (cls : FsmState) : DecodeCall :=
    { fsm := [.start, .extractChecks, .recomputeSyndrome, cls], orig := some orig, prime := some prime, syndrome := some S,
      working := none, primeG := none, result := .err .syndromeOutOfRange }
  if S = 0 then finishCall M (call .noError) c
  else if S < c.length then do
    let w ← toggleBit c S
    finishCall M (call .correctableSingleBit) w
  else pure (call .uncorrectableRange)

/-- R150: the normal path of one `DEC` of the word `c` on the instance `M`, with its call-scoped state. -/
def decodeNormal (M : Nat) (c : BitSeq) : Except Fault DecodeCall := do
  let orig ← extractCheckBits c M
  let prime ← recompute (codeLength M) (checkCount M) c
  classifyCall M c orig prime (syndromeOf prime orig)

/-- R150, R151: one `DEC` of the word `c` on the instance `M`; an all-zero word is returned unchanged, with its own length. -/
def decodeCall (M : Nat) (c : BitSeq) : Except Fault DecodeCall :=
  if isZero c then
    pure { fsm := [.start, .success], orig := none, prime := none, syndrome := none, working := none, primeG := none,
           result := .ok c }
  else decodeNormal M c

/-- R150: `decode(c, M)`; nothing else of the call survives (R38). -/
def decodeCodeword (M : Nat) (c : BitSeq) : Except Fault DecodeResult :=
  match decodeCall M c with
  | .ok call => .ok call.result
  | .error f => .error f

/-- R36, R150: the meaning of `DEC`. -/
def execDec (cw : BitSeq) (s : State) : Host.Outcome State Fault Refusal :=
  match codewordOperand s cw with
  | .error r => .refused r
  | .ok c =>
    match decodeCodeword s.messageLength c with
    | .error f => .fault f
    | .ok res => .next (writeDecRes s res)

end Sys2Proof.Machine
end

