-- ==== Sys2Proof/Machine/Encoder.lean ====
section
/-! DEFINITION. The encoder unit: the operation `ENC` (spec/41_encoder.md R130) and its steps, one definition each. -/

namespace Sys2Proof.Machine

/-- R132, one position of the placement loop: `W[p] <- m[t]; t <- t + 1` at a position that is not a power of two. -/
def placeAt (m : BitSeq) (acc : BitSeq × Nat) (p : Nat) : Except Fault (BitSeq × Nat) :=
  if isPowerOfTwo p then pure acc
  else do
    let b ← readBit m acc.2
    let w ← writeBit acc.1 p b
    pure (w, acc.2 + 1)

/-- R132: the message bits, in order, at the positions `1 .. n-1` that are not powers of two. -/
def place (n : Nat) (w m : BitSeq) : Except Fault BitSeq := do
  let acc ← (List.range' 1 (n - 1)).foldlM (placeAt m) (w, 0)
  pure acc.1

/-- R134, one position of the parity loop: "if `j != i` and `(i & j) != 0` and the bit at `j` is set, toggle the bit at `i`". -/
def checkAt (i : Nat) (w : BitSeq) (j : Nat) : Except Fault BitSeq :=
  if inGroup i j then do
    let b ← readBit w j
    if b then toggleBit w i else pure w
  else pure w

/-- R134: one check bit, over every position `j` in `[0, n)`. -/
def check (n : Nat) (w : BitSeq) (i : Nat) : Except Fault BitSeq := (List.range n).foldlM (checkAt i) w

/-- R133: the check bits at the positions `order`, one after another, each on the buffer the previous one left. -/
def checksInOrder (n : Nat) (order : List Nat) (w : BitSeq) : Except Fault BitSeq := order.foldlM (check n) w

/-- R133: the check positions `1, 2, 4, ..., 2^(K-1)`, ascending: the normative order. -/
def ascendingChecks (k : Nat) : List Nat := (List.range k).map chk

/-- R135: "set position 0 to the parity (count of set bits mod 2) of the entire word". -/
def setGlobalParity (w : BitSeq) : Except Fault BitSeq := writeBit w 0 (parity w)

/-- R130: the normal path of `encode(m)` on the instance `M`: placement, check bits ascending, global parity. -/
def encodeNormal (M : Nat) (m : BitSeq) : Except Fault BitSeq := do
  let w ← place (codeLength M) (zeros (codeLength M)) m
  let w ← checksInOrder (codeLength M) (ascendingChecks (checkCount M)) w
  setGlobalParity w

/-- R130, R131: `encode(m)` on the instance `M`; an all-zero message is returned unchanged, with its own length. -/
def encodeMessage (M : Nat) (m : BitSeq) : Except Fault BitSeq :=
  if isZero m then pure m else encodeNormal M m

/-- R36, R130: the meaning of `ENC`. -/
def execEnc (msg : BitSeq) (s : State) : Host.Outcome State Fault Refusal :=
  match messageOperand s msg with
  | .error r => .refused r
  | .ok m =>
    match encodeMessage s.messageLength m with
    | .error f => .fault f
    | .ok r => .next (writeEncRes s r)

end Sys2Proof.Machine
end

