-- ==== Sys2Proof/Machine/Dispatch.lean ====
section
/-! DEFINITION. One arm per operation of spec/30_encoding.md R84. -/

namespace Sys2Proof.Machine

def exec (i : Instr) (s : State) : Host.Outcome State Fault Refusal :=
  match i with
  | .enc msg => Sys2Proof.Machine.execEnc msg s
  | .dec cw => Sys2Proof.Machine.execDec cw s

end Sys2Proof.Machine
end

