-- ==== Sys2Proof/Machine/HostPort.lean ====
section
/-! DEFINITION. The host's side of one step: issuing a request (spec/10_state.md R36), reading latch fields (R39, R87) and applying
reset (R200). -/

namespace Sys2Proof.Machine

/-- R39: a field's current value, `none` while it holds no value (R35). -/
def fieldValue (s : State) : Field → Option ReadValue
  | .encValid => some (.bit s.encRes.valid)
  | .encLen => s.encRes.len.map .number
  | .encData => s.encRes.data.map .bits
  | .decValid => some (.bit s.decRes.valid)
  | .decStatus => s.decRes.status.map .status
  | .decLen => s.decRes.len.map .number
  | .decData => s.decRes.data.map .bits

/-- R33, R87: the fields of a latch, in the order `RD` returns them. -/
def latchFields : Latch → List Field
  | .encRes => [.encValid, .encLen, .encData]
  | .decRes => [.decValid, .decStatus, .decLen, .decData]

/-- R39: the host reads fields, one after another: each read "returns the field's current value and changes nothing" of the block;
what it returned joins the host's record. Reading a field that holds no value "is a fault of the host's program" (R35), which the model
refuses (R185, U5) and which leaves the run no end state (R212). -/
def readFields : List Field → State → Host.Outcome State Fault Refusal
  | [], s => .next s
  | f :: fs, s =>
    match fieldValue s f with
    | some v => readFields fs { s with reads := s.reads ++ [(f, v)] }
    | none => .fault .hostReadOfNoValue

/-- R36, R80: the host issues a request word; a word that is no request of the instance is refused by name (R85). -/
def issueRequest (word : BitSeq) (s : State) : Host.Outcome State Fault Refusal :=
  match decode s.messageLength word with
  | .ok i => exec i s
  | .error why => .refused (.notARequest why)

/-- One event of the host. A request that reset cuts short "produces no result and leaves no trace" (R200). -/
def runEvent (e : HostEvent) (s : State) : Host.Outcome State Fault Refusal :=
  match e with
  | .request word => issueRequest word s
  | .readField f => readFields [f] s
  | .readLatch l => readFields (latchFields l) s
  | .reset _ => .next (resetInstance s)

/-- The host's next event is to be the request that stands at the front of a table word (log entries 3 and 7). -/
def issueTableWord (s : State) (nbits w : Nat) : State :=
  { s with program := .request (tableRequestWord s.messageLength nbits w) :: s.program }

end Sys2Proof.Machine
end

