-- ==== Sys2Proof/Machine/Step.lean ====
section
/-! DEFINITION. One step of one instance: the host's next event, whole and atomic (spec/10_state.md R36, R42; spec/20_memory.md R66,
R67). -/

namespace Sys2Proof.Machine

/-- The host's next event is taken off its program and run; with nothing issued, nothing happens. An instance whose `M` is not
admitted is refused (spec/00_scope.md R7). -/
def step (s : State) : Host.Outcome State Fault Refusal :=
  if Admitted s.messageLength then
    match s.program with
    | [] => .next s
    | e :: rest => runEvent e { s with program := rest }
  else .refused .instanceNotAdmitted

/-- `s` with the request at the front of the table word `w` issued next (log entry 3). -/
def State.withFetchWord (s : State) (nbits w : Nat) : State := issueTableWord s nbits w

end Sys2Proof.Machine
end

