-- ==== Sys2Proof/Machine/Ports.lean ====
section
/-! DEFINITION. The signal-level sketch of spec/10_state.md R43 (informative: no rule and no other definition depends on it). -/

namespace Sys2Proof.Machine

/-- R43: the input signals. -/
structure PortsIn where
  reqValid : Bool
  /-- 0 = `ENC`, 1 = `DEC`. -/
  reqOp : Bool
  /-- The operand of `ENC`, read only when `reqOp = 0`. -/
  reqMsg : BitSeq
  /-- The operand of `DEC`, read only when `reqOp = 1`. -/
  reqCw : BitSeq
  deriving DecidableEq, Repr

/-- R43: the output signals; one that carries no value (R35) is `none`. -/
structure PortsOut where
  encValid : Bool
  encLen : Option Nat
  encData : Option BitSeq
  decValid : Bool
  decStatus : Option (BitVec 2)
  decLen : Option Nat
  decData : Option BitSeq
  deriving DecidableEq, Repr

/-- R43: the request word on the wires, "`req_msg` or `req_cw` with `req_op` appended below bit 0". -/
def portsWord (p : PortsIn) : BitSeq := p.reqOp :: (if p.reqOp then p.reqCw else p.reqMsg)

/-- R43: the outputs in a state. -/
def portsOut (s : State) : PortsOut :=
  { encValid := s.encRes.valid, encLen := s.encRes.len, encData := s.encRes.data, decValid := s.decRes.valid,
    decStatus := s.decRes.status.map statusCode, decLen := s.decRes.len, decData := s.decRes.data }

/-- R43: "a request is accepted when `req_valid` is 1"; the matching latch changes once. -/
def portsStep (p : PortsIn) (s : State) : Host.Outcome State Fault Refusal :=
  if p.reqValid then issueRequest (portsWord p) s else .next s

end Sys2Proof.Machine
end

