-- ==== Sys2Proof/Machine/System.lean ====
section
/-! DEFINITION. Several instances (spec/60_exceptions.md R192, spec/20_memory.md R67): any number, with equal or different `M`,
sharing nothing, stepped one at a time in any interleaving. -/

namespace Sys2Proof.Machine

/-- The instance at index `k` takes one step; where there is no such instance, nothing happens. -/
def stepInstance (sys : List State) (k : Nat) : Host.Outcome (List State) Fault Refusal :=
  match sys[k]? with
  | none => .next sys
  | some s =>
    match step s with
    | .next t => .next (sys.set k t)
    | .fault f => .fault f
    | .refused r => .refused r

/-- The instances step in the order of an interleaving, each entry the index of the instance that steps. -/
def runInterleaving : List Nat → List State → Host.Outcome (List State) Fault Refusal
  | [], sys => .next sys
  | k :: ks, sys =>
    match stepInstance sys k with
    | .next sys' => runInterleaving ks sys'
    | .fault f => .fault f
    | .refused r => .refused r

end Sys2Proof.Machine
end

