-- ==== Sys2Proof/Safety.lean ====
section
/-! DEFINITION. The terms claims are stated in: bits of a word by position, parities of groups, the exclusive or of indices, valid
codewords (spec/41_encoder.md R136), and what a well-formed state of an instance is (spec/10_state.md R33, R35). -/

namespace Sys2Proof.Machine

/-- The bit of `w` at position `p`; outside the word it is 0 (the model's own accesses are checked: `readBit`). -/
def bitAt (w : BitSeq) (p : Nat) : Bool := w.getD p false

/-- The exclusive or of the bits of `w` at the positions `ps`. -/
def xorOver (w : BitSeq) : List Nat → Bool
  | [] => false
  | p :: ps => bitAt w p ^^ xorOver w ps

/-- The positions of `w` that hold a 1, ascending. -/
def setPositions (w : BitSeq) : List Nat := (List.range w.length).filter (bitAt w)

/-- The exclusive or of the indices of the set positions of `w` (R136, R160). -/
def indexXor (w : BitSeq) : Nat := (setPositions w).foldr (· ^^^ ·) 0

/-- `w` with position `p` complemented (R164). -/
def flipAt (w : BitSeq) (p : Nat) : BitSeq := w.set p (!bitAt w p)

/-- R136, the source's "valid codeword" invariants: every check bit is the parity of its group, and `G` is the parity of all other
bits. -/
def isCodeword (M : Nat) (w : BitSeq) : Bool :=
  w.length == codeLength M
    && (List.range (checkCount M)).all (fun t => bitAt w (chk t) == xorOver w (group (codeLength M) (chk t)))
    && bitAt w 0 == parity (w.drop 1)

/-- R33, R35, R131, R136: `ENC_RES` holds nothing while it is not valid; else `data` is a valid codeword of `N` bits, and `len` is
`M` exactly when `data` is all zero, `N` otherwise. -/
def encLatchOk (M : Nat) (l : EncLatch) : Bool :=
  match l.valid, l.len, l.data with
  | false, none, none => true
  | true, some n, some d => isCodeword M d && (n == if isZero d then M else codeLength M)
  | _, _, _ => false

/-- R33, R34, R35, R151: `DEC_RES` holds nothing while it is not valid; after an error it holds the status alone; after a success
`data` has `N` bits, those from `M` up 0, and `len` is `M`, or `N` with every bit 0. -/
def decLatchOk (M : Nat) (l : DecLatch) : Bool :=
  match l.valid, l.status, l.len, l.data with
  | false, none, none, none => true
  | true, some .ok, some n, some d =>
    d.length == codeLength M && isZero (d.drop M) && (n == M || (n == codeLength M && isZero d))
  | true, some .syndromeOutOfRange, none, none => true
  | true, some .globalParityMismatch, none, none => true
  | _, _, _, _ => false

/-- A well-formed instance (R7) whose latches are well formed. -/
def stateOk (s : State) : Bool :=
  decide (Admitted s.messageLength) && encLatchOk s.messageLength s.encRes && decLatchOk s.messageLength s.decRes

/-- The message of the last `ENC` of a sequence of requests (R67). -/
def lastEnc : List Instr → Option BitSeq
  | [] => none
  | .enc m :: is => some ((lastEnc is).getD m)
  | .dec _ :: is => lastEnc is

/-- The received word of the last `DEC` of a sequence of requests (R67). -/
def lastDec : List Instr → Option BitSeq
  | [] => none
  | .enc _ :: is => lastDec is
  | .dec c :: is => some ((lastDec is).getD c)

/-- The two operations belong to one unit (R32). -/
def sameUnit : Instr → Instr → Bool
  | .enc _, .enc _ => true
  | .dec _, .dec _ => true
  | .enc _, .dec _ => false
  | .dec _, .enc _ => false

/-- The event is a request whose `op` bit selects `ENC` (R81). -/
def isEncRequest : HostEvent → Bool
  | .request (false :: _) => true
  | _ => false

/-- The event is a request whose `op` bit selects `DEC` (R82). -/
def isDecRequest : HostEvent → Bool
  | .request (true :: _) => true
  | _ => false

/-- The event is a reset (R200). -/
def isReset : HostEvent → Bool
  | .reset _ => true
  | _ => false

/-- R212: the host has nothing left to do: the run has ended, and its end state is `s`. -/
def runEnded (s : State) : Bool := s.program.isEmpty

/-- An event that the instance `M` always completes: a request of it (R85), a read of a `valid` bit (R35), or reset. -/
def completes (M : Nat) : HostEvent → Bool
  | .request word => match decode M word with
    | .ok _ => true
    | .error _ => false
  | .readField f => f == .encValid || f == .decValid
  | .readLatch _ => false
  | .reset _ => true

end Sys2Proof.Machine
end

