-- ==== Sys2Proof/Certificates/Slice0/Obligations.lean ====
section
/-! DEFINITION. The statements for the provers, in the order of spec/: each docstring names the rule it formalises. Statements over
an instance hold for every admitted `M` (spec/00_scope.md R7). -/

open Sys2Proof Sys2Proof.Machine

/-! ### Requests (spec/30_encoding.md) -/

/-- R81, R82, R86: a request's word decodes to the request, and a word that decodes is the word of the request it decodes to. -/
def Obligations.DecodeEncodeAgree : Prop :=
  ∀ M : Nat,
    (∀ i, WellFormed M i → decode M (encode i) = .ok i) ∧
    (∀ w i, decode M w = .ok i → WellFormed M i ∧ encode i = w)

/-- R81, R82: the two formats field by field, for every word, with the rules' examples. That every other width is rejected, as
`empty`, `tooShort` or `tooLong`, is the model's choice (log entry 6, DESIGN CHOICE): R85 says that such a word is no request and
cannot be presented. -/
def Obligations.RequestWordFields : Prop :=
  (∀ M : Nat, decode M [] = .error .empty) ∧
  (∀ (M : Nat) (x : BitSeq),
    if x.length < M then decode M (false :: x) = .error .tooShort
    else if M < x.length then decode M (false :: x) = .error .tooLong
    else ∃ msg, decode M (false :: x) = .ok (.enc msg) ∧ msg.length = M ∧
      ∀ t < M, bitAt msg t = bitAt (false :: x) (t + 1)) ∧
  (∀ (M : Nat) (x : BitSeq),
    if x.length < codeLength M then decode M (true :: x) = .error .tooShort
    else if codeLength M < x.length then decode M (true :: x) = .error .tooLong
    else ∃ cw, decode M (true :: x) = .ok (.dec cw) ∧ cw.length = codeLength M ∧
      ∀ p < codeLength M, bitAt cw p = bitAt (true :: x) (p + 1)) ∧
  decode 8 (seq 9 0x01E) = .ok (.enc (seq 8 0x0F)) ∧
  decode 8 (seq 14 0x01FF) = .ok (.dec (seq 13 0x00FF))

/-- Request words written out in spec/95_test_vectors.md (programs P1, P3, P4, P5) decode to the requests they stand for. -/
def Obligations.SpecRequestWordsDecode : Prop :=
  decode 8 (seq 9 0x01E) = .ok (.enc (seq 8 0x0F)) ∧
  decode 8 (seq 14 0x01BF) = .ok (.dec (seq 13 0x00DF)) ∧
  decode 8 (seq 14 0x0005) = .ok (.dec (seq 13 0x0002)) ∧
  decode 4 (seq 5 0x16) = .ok (.enc (seq 4 0xB)) ∧
  decode 4 (seq 9 0x115) = .ok (.dec (seq 8 0x8A)) ∧
  decode 16 (seq 17 0x14B4A) = .ok (.enc (seq 16 0xA5A5)) ∧
  decode 16 (seq 23 0x1168BF) = .ok (.dec (seq 22 0x08B45F))

/-- R36, R80: a step whose next event is a request word runs the operation the word decodes to, with the event taken off the host's
program; and the very next step after `withFetchWord` runs the operation at the front of the table word, which every table word
has. The host's program is the model's own field (log entry 3, DESIGN CHOICE), and so is the reading of a table word, whose bits above
the request's own width are dropped (log entry 7, DESIGN CHOICE). -/
def Obligations.StepRunsDecodedRequest : Prop :=
  (∀ (s : State) (w : BitSeq) (rest : List HostEvent) (i : Instr), Admitted s.messageLength →
    s.program = .request w :: rest → decode s.messageLength w = .ok i →
    step s = exec i { s with program := rest }) ∧
  (∀ (s : State) (nbits w : Nat), Admitted s.messageLength →
    ∃ i, decode s.messageLength (tableRequestWord s.messageLength nbits w) = .ok i ∧
      step (s.withFetchWord nbits w) = exec i s)

/-- With nothing issued a step changes nothing (the model's convention, log entry 3; R43: a request is accepted when `req_valid` is
1). -/
def Obligations.IdleStepChangesNothing : Prop :=
  ∀ s : State, Admitted s.messageLength → s.program = [] → step s = .next s

/-- R43: on the wires of the signal sketch, `req_op` 0 runs `ENC` on `req_msg`, 1 runs `DEC` on `req_cw`, and nothing happens while
`req_valid` is 0. -/
def Obligations.PortsPresentRequests : Prop :=
  ∀ (p : PortsIn) (s : State), p.reqMsg.length = s.messageLength → p.reqCw.length = codeLength s.messageLength →
    portsStep p s =
      if p.reqValid then (if p.reqOp then exec (.dec p.reqCw) s else exec (.enc p.reqMsg) s) else .next s

/-! ### Parameters and position map (spec/00_scope.md, spec/20_memory.md) -/

/-- R7: the admitted `M` are exactly `2^(K-1) <= M <= 2^K - K - 1` with `K >= 3`; on them the positions below `N` hold exactly `K`
powers of two, `2^0 .. 2^(K-1)`, and `M` message positions; on every other `M >= 1`, `K + 1` powers of two and `M - 1` message
positions; an instance is built exactly for an admitted `M`, and the default `M = 8` is one. -/
def Obligations.AdmittedInstances : Prop :=
  (∀ M : Nat, Admitted M ↔ ∃ K, 3 ≤ K ∧ 2 ^ (K - 1) ≤ M ∧ M + K + 1 ≤ 2 ^ K) ∧
  (∀ M : Nat, Admitted M →
    checkPositions (codeLength M) = (List.range (checkCount M)).map (2 ^ ·) ∧
    (messagePositions (codeLength M)).length = M) ∧
  (∀ M : Nat, 1 ≤ M → ¬ Admitted M →
    (checkPositions (codeLength M)).length = checkCount M + 1 ∧
    (messagePositions (codeLength M)).length = M - 1) ∧
  (∀ M : Nat, State.build M = if Admitted M then some (State.resetOf M) else none) ∧
  Admitted 8

/-- R8: on every admitted `M` the as-built `K` is also the least `K` with `M + K <= 2^K - 1`. -/
def Obligations.TextbookCheckCountAgrees : Prop :=
  ∀ M : Nat, Admitted M →
    M + checkCount M ≤ 2 ^ checkCount M - 1 ∧ ∀ k, M + k ≤ 2 ^ k - 1 → checkCount M ≤ k

/-- R62: the role of every position: `G` at 0, a check bit at every power of two, a message bit everywhere else. -/
def Obligations.RolesOfPositions : Prop :=
  ∀ p : Nat,
    (role p = .globalParity ↔ p = 0) ∧
    (role p = .check ↔ ∃ t, p = 2 ^ t) ∧
    (role p = .message ↔ p ≠ 0 ∧ ∀ t, p ≠ 2 ^ t)

/-- R63: `slot` enumerates the message positions of every admitted instance in ascending order; its closed form; its first
values. -/
def Obligations.SlotEnumeratesMessagePositions : Prop :=
  (∀ M : Nat, Admitted M → messagePositions (codeLength M) = (List.range M).map slot) ∧
  (∀ p : Nat, 1 ≤ p → (messagePositions (p + 1)).length = p - 1 - Nat.log2 p) ∧
  (∀ t : Nat, 1 ≤ slot t ∧ slot t - 1 - Nat.log2 (slot t) = t + 1 ∧
    ∀ p, 1 ≤ p → p - 1 - Nat.log2 p = t + 1 → slot t ≤ p) ∧
  (List.range 16).map slot = [3, 5, 6, 7, 9, 10, 11, 12, 13, 14, 15, 17, 18, 19, 20, 21]

/-- R70: the parity group of a check position, and its consequences (a), (b), (c). -/
def Obligations.ParityGroups : Prop :=
  ∀ n t : Nat,
    (∀ j, j ∈ group n (2 ^ t) ↔ j < n ∧ j ≠ 2 ^ t ∧ 2 ^ t &&& j ≠ 0) ∧
    0 ∉ group n (2 ^ t) ∧
    (∀ u, 2 ^ u ∉ group n (2 ^ t)) ∧
    (∀ j ∈ group n (2 ^ t), role j = .message) ∧
    (∀ p, p < n → role p = .message → (p ∈ group n (2 ^ t) ↔ p.testBit t = true))

/-! ### Helpers (spec/40_helpers.md) -/

/-- R100: `isPowerOfTwo`. -/
def Obligations.PowerOfTwoHelper : Prop :=
  (∀ x : Nat, isPowerOfTwo x = true ↔ ∃ k, x = 2 ^ k) ∧
  isPowerOfTwo 0 = false ∧ isPowerOfTwo 1 = true ∧ isPowerOfTwo 8 = true ∧ isPowerOfTwo 12 = false

/-- R101, R102: `bitsToBytes` is the floor and `minimumBytes` the ceiling of an eighth; the rules' examples. -/
def Obligations.ByteHelpers : Prop :=
  (∀ b : Nat, 8 * bitsToBytes b ≤ b ∧ b < 8 * (bitsToBytes b + 1)) ∧
  (∀ b : Nat, b ≤ 8 * minimumBytes b ∧ ∀ k, b ≤ 8 * k → minimumBytes b ≤ k) ∧
  [0, 7, 13, 16].map bitsToBytes = [0, 0, 1, 2] ∧
  [0, 8, 9, 13].map minimumBytes = [0, 1, 2, 2]

/-- R103: `concat`: an all-zero `a` is dropped, else `a`'s bits are followed by `b`'s; the rule's example. That "followed by" puts `a`
at the lower indices is the spec's own reading (D12; log entry 11, DESIGN CHOICE). -/
def Obligations.ConcatDropsZeroPrefix : Prop :=
  (∀ a b : BitSeq, isZero a = true → concat a b = b) ∧
  (∀ a b : BitSeq, isZero a = false →
    (concat a b).length = a.length + b.length ∧
    (∀ t < a.length, bitAt (concat a b) t = bitAt a t) ∧
    (∀ t < b.length, bitAt (concat a b) (a.length + t) = bitAt b t)) ∧
  concat (seq 2 0b01) (seq 3 0b110) = seq 5 0b11001

/-- R104, R108: `minimumCheckBits` is the least `K` with `length <= 2^K - 1`, the number of binary digits, and non-decreasing. -/
def Obligations.MinimumCheckBitsLeast : Prop :=
  (∀ n : Nat, n ≤ 2 ^ minimumCheckBits n - 1 ∧ ∀ k, n ≤ 2 ^ k - 1 → minimumCheckBits n ≤ k) ∧
  (∀ n : Nat, 1 ≤ n → minimumCheckBits n = Nat.log2 n + 1) ∧
  (∀ m n : Nat, m ≤ n → minimumCheckBits m ≤ minimumCheckBits n) ∧
  minimumCheckBits 0 = 0

/-- R105: `extractCheckBits` on an admitted instance: `r[t] = cw[2^t]`, no access out of range; the rule's example. -/
def Obligations.ExtractCheckBitsReads : Prop :=
  (∀ (M : Nat) (cw : BitSeq), Admitted M → cw.length = codeLength M →
    ∃ r, extractCheckBits cw M = .ok r ∧ r.length = minimumCheckBits M ∧
      ∀ t < minimumCheckBits M, bitAt r t = bitAt cw (2 ^ t)) ∧
  extractCheckBits (seq 13 0x00FF) 8 = .ok (seq 4 0b0111)

/-- R106: `extractMessageBits` on an admitted instance: `r[t] = cw[slot(t)]`, no access out of range; the rule's example. -/
def Obligations.ExtractMessageBitsReads : Prop :=
  (∀ (M : Nat) (cw : BitSeq), Admitted M → cw.length = codeLength M →
    ∃ r, extractMessageBits cw M = .ok r ∧ r.length = M ∧ ∀ t < M, bitAt r t = bitAt cw (slot t)) ∧
  extractMessageBits (seq 13 0x00FF) 8 = .ok (seq 8 0x0F)

/-! ### The encoder (spec/41_encoder.md) -/

/-- R130, R132, R134, R135, R36: `ENC` of a message with a set bit completes; the payload bits stand at the slots, each check bit is
the parity of its group, `G` is the parity of the other bits, and `ENC_RES` gets the `N`-bit word whole, nothing else changed. -/
def Obligations.EncWritesCodeword : Prop :=
  ∀ (s : State) (msg : BitSeq), Admitted s.messageLength → msg.length = s.messageLength → isZero msg = false →
    ∃ w, exec (.enc msg) s
        = .next { s with encRes := { valid := true, len := some (codeLength s.messageLength), data := some w } } ∧
      w.length = codeLength s.messageLength ∧
      (∀ t < s.messageLength, bitAt w (slot t) = bitAt msg t) ∧
      (∀ t < checkCount s.messageLength, bitAt w (2 ^ t) = xorOver w (group (codeLength s.messageLength) (2 ^ t))) ∧
      bitAt w 0 = parity (w.drop 1)

/-- R131: `ENC` of the all-zero message completes with the input unchanged: `len` is `M`, `data` is `zeros(N)`; the normal path would
give the same bits. -/
def Obligations.EncZeroFastPath : Prop :=
  ∀ (s : State) (msg : BitSeq), Admitted s.messageLength → msg.length = s.messageLength → isZero msg = true →
    encodeMessage s.messageLength msg = .ok msg ∧
    encodeNormal s.messageLength msg = .ok (zeros (codeLength s.messageLength)) ∧
    exec (.enc msg) s = .next { s with
      encRes := { valid := true, len := some s.messageLength, data := some (zeros (codeLength s.messageLength)) } }

/-- R133: the check positions are the powers of two below `N`, ascending; any order of them gives the same word, and completes. -/
def Obligations.CheckOrderUnobservable : Prop :=
  ∀ M : Nat, Admitted M →
    ascendingChecks (checkCount M) = checkPositions (codeLength M) ∧
    ∀ (w : BitSeq) (order : List Nat), w.length = codeLength M → order.Perm (ascendingChecks (checkCount M)) →
      ∃ v, checksInOrder (codeLength M) (ascendingChecks (checkCount M)) w = .ok v ∧
        checksInOrder (codeLength M) order w = .ok v

/-- R136: a word of `N` bits is a valid codeword exactly when the exclusive or of the indices of its set positions is 0 and its
weight is even; and what every `ENC` leaves in `ENC_RES.data` is one. -/
def Obligations.CodewordsByIndexXor : Prop :=
  (∀ (M : Nat) (w : BitSeq), Admitted M → w.length = codeLength M →
    (isCodeword M w = true ↔ indexXor w = 0 ∧ popcount w % 2 = 0)) ∧
  (∀ (s : State) (msg : BitSeq), Admitted s.messageLength → msg.length = s.messageLength →
    ∃ t d, exec (.enc msg) s = .next t ∧ t.encRes.data = some d ∧ isCodeword s.messageLength d = true)

/-- R137: encoding keeps the message at the message positions, is injective, and its `data` field is linear. -/
def Obligations.EncLinearInjective : Prop :=
  ∀ (s : State) (a b : BitSeq), Admitted s.messageLength → a.length = s.messageLength → b.length = s.messageLength →
    ∃ t u v c d e, exec (.enc a) s = .next t ∧ t.encRes.data = some c ∧
      exec (.enc b) s = .next u ∧ u.encRes.data = some d ∧
      exec (.enc (xorSeq a b)) s = .next v ∧ v.encRes.data = some e ∧
      extractMessageBits c s.messageLength = .ok a ∧ xorSeq c d = e ∧ (c = d → a = b)

/-- R138: every nonzero codeword has at least 4 set bits; the weight of the codeword of a one-bit message; the rule's examples. -/
def Obligations.CodewordWeights : Prop :=
  (∀ (M : Nat) (w : BitSeq), Admitted M → isCodeword M w = true → isZero w = false → 4 ≤ popcount w) ∧
  (∀ M t : Nat, Admitted M → t < M →
    ∃ w, encodeMessage M (flipAt (zeros M) t) = .ok w ∧
      popcount w = 1 + oneDigits (slot t) + (1 + oneDigits (slot t)) % 2) ∧
  encodeMessage 8 (seq 8 0x01) = .ok (seq 13 0x000F) ∧
  encodeMessage 8 (seq 8 0x08) = .ok (seq 13 0x0096)

/-! ### The decoder (spec/42_decoder.md) -/

/-- R151: `DEC` of the all-zero word completes with the input unchanged: status OK, `len` is `N`, `data` is `zeros(N)`; the normal
path would give `S = 0`, `primeG = 0` and the message `zeros(M)`. -/
def Obligations.DecZeroFastPath : Prop :=
  ∀ (s : State) (cw : BitSeq), Admitted s.messageLength → cw.length = codeLength s.messageLength → isZero cw = true →
    decodeCodeword s.messageLength cw = .ok (.ok cw) ∧
    (∃ call, decodeNormal s.messageLength cw = .ok call ∧ call.syndrome = some 0 ∧ call.primeG = some false ∧
      call.result = .ok (zeros s.messageLength)) ∧
    exec (.dec cw) s = .next { s with
      decRes :=
        { valid := true, status := some .ok, len := some (codeLength s.messageLength),
          data := some (zeros (codeLength s.messageLength)) } }

/-- R150, R155, R158, R159, R160: `DEC` of any other word completes; with `S` the exclusive or of the indices of its set positions:
out of range, or corrected at `S` (nothing for `S = 0`) and of odd weight, or the message bits of the corrected word. -/
def Obligations.DecWritesOutcome : Prop :=
  ∀ (s : State) (cw : BitSeq), Admitted s.messageLength → cw.length = codeLength s.messageLength → isZero cw = false →
    exec (.dec cw) s = .next { s with
      decRes :=
        if codeLength s.messageLength ≤ indexXor cw then
          { valid := true, status := some .syndromeOutOfRange, len := none, data := none }
        else
          let w := if indexXor cw = 0 then cw else flipAt cw (indexXor cw)
          if popcount w % 2 = 1 then
            { valid := true, status := some .globalParityMismatch, len := none, data := none }
          else
            { valid := true, status := some .ok, len := some s.messageLength,
              data := some (zext (codeLength s.messageLength)
                ((List.range s.messageLength).map fun t => bitAt w (slot t))) } }

/-- R152, R153, R154: the received check bits, the recomputed ones and the syndrome of a word that is not all zero. -/
def Obligations.SyndromeFromCheckBits : Prop :=
  ∀ (M : Nat) (c : BitSeq), Admitted M → c.length = codeLength M → isZero c = false →
    ∃ call orig prime S, decodeCall M c = .ok call ∧ call.orig = some orig ∧ call.prime = some prime ∧
      call.syndrome = some S ∧ orig.length = checkCount M ∧ prime.length = checkCount M ∧
      (∀ t < checkCount M, bitAt orig t = bitAt c (2 ^ t)) ∧
      (∀ t < checkCount M, bitAt prime t = xorOver c (group (codeLength M) (2 ^ t))) ∧
      S = val (xorSeq prime orig) ∧
      (∀ t < checkCount M, S.testBit t = (bitAt prime t ^^ bitAt orig t)) ∧
      S ≤ 2 ^ checkCount M - 1

/-- R160: the syndrome is the exclusive or of the indices of the set positions, each digit the parity of how many of them have it;
of a codeword with the error pattern `e` it is that of `e`. -/
def Obligations.SyndromeIsIndexXor : Prop :=
  (∀ (M : Nat) (c : BitSeq), Admitted M → c.length = codeLength M → isZero c = false →
    ∃ call, decodeCall M c = .ok call ∧ call.syndrome = some (indexXor c)) ∧
  (∀ (c : BitSeq) (t : Nat),
    (indexXor c).testBit t = decide ((setPositions c).countP (fun p => p.testBit t) % 2 = 1)) ∧
  (∀ (M : Nat) (v e : BitSeq), Admitted M → isCodeword M v = true → e.length = codeLength M →
    indexXor (xorSeq v e) = indexXor e)

/-- R158: the adjusted parity is the parity of the bits other than `G`, and differs from `G` exactly when the weight is odd. -/
def Obligations.GlobalParityCheck : Prop :=
  ∀ w : BitSeq, 0 < w.length →
    adjustedParity w = .ok (parity (w.drop 1)) ∧
    (parity (w.drop 1) ≠ bitAt w 0 ↔ popcount w % 2 = 1)

/-- R162: the states the decoder goes through are the path of the transition table from `Start` to a terminal state, and that state
tells the outcome. -/
def Obligations.DecoderFollowsStateMachine : Prop :=
  ∀ (M : Nat) (c : BitSeq), Admitted M → c.length = codeLength M →
    ∃ call last, decodeCall M c = .ok call ∧
      call.fsm = fsmPath (fsmNext (isZero c) (call.syndrome.getD 0) (codeLength M)
        (call.primeG == call.working.map (bitAt · 0))) 9 .start ∧
      call.fsm.getLast? = some last ∧
      (∀ (z g : Bool) (S n : Nat), fsmNext z S n g last = none) ∧
      (last = .success ↔ resultStatus call.result = .ok) ∧
      (last = .uncorrectableRange ↔ resultStatus call.result = .syndromeOutOfRange) ∧
      (last = .uncorrectableParityMismatch ↔ resultStatus call.result = .globalParityMismatch)

/-- R163: `DEC` of the `data` that `ENC m` produced succeeds with `m`; `len` is `M`, or `N` for the all-zero message. -/
def Obligations.RoundTrip : Prop :=
  ∀ (s : State) (msg : BitSeq), Admitted s.messageLength → msg.length = s.messageLength →
    ∃ t d u, exec (.enc msg) s = .next t ∧ t.encRes.data = some d ∧ exec (.dec d) t = .next u ∧
      u.decRes =
        { valid := true, status := some .ok,
          len := some (if isZero msg then codeLength s.messageLength else s.messageLength),
          data := some (zext (codeLength s.messageLength) msg) }

/-- R164: one flipped position of an encoded message: every position but 0 is corrected, position 0 is detected. -/
def Obligations.SingleFlips : Prop :=
  ∀ (s : State) (msg : BitSeq) (p : Nat), Admitted s.messageLength → msg.length = s.messageLength →
    p < codeLength s.messageLength →
    ∃ t d u call, exec (.enc msg) s = .next t ∧ t.encRes.data = some d ∧ exec (.dec (flipAt d p)) t = .next u ∧
      isZero (flipAt d p) = false ∧ decodeCall s.messageLength (flipAt d p) = .ok call ∧ call.syndrome = some p ∧
      (if p = 0 then
        call.working = some (flipAt d 0) ∧ popcount (flipAt d 0) % 2 = 1 ∧
        u.decRes = { valid := true, status := some .globalParityMismatch, len := none, data := none }
      else
        call.working = some d ∧ popcount d % 2 = 0 ∧
        u.decRes =
          { valid := true, status := some .ok, len := some s.messageLength,
            data := some (zext (codeLength s.messageLength) msg) })

/-- R165: two flipped positions of an encoded message: the syndrome `S` is their exclusive or, not 0; out of range when `S` is,
otherwise position `S` is flipped (neither of the two, unless one is 0) and the weight is odd; the outcome is always an error. The
rule's examples. -/
def Obligations.DoubleFlipsDetected : Prop :=
  (∀ (s : State) (msg : BitSeq) (p q : Nat), Admitted s.messageLength → msg.length = s.messageLength →
    p < q → q < codeLength s.messageLength →
    ∃ t d u call, exec (.enc msg) s = .next t ∧ t.encRes.data = some d ∧
      exec (.dec (flipAt (flipAt d p) q)) t = .next u ∧
      decodeCall s.messageLength (flipAt (flipAt d p) q) = .ok call ∧ call.syndrome = some (p ^^^ q) ∧ p ^^^ q ≠ 0 ∧
      (p = 0 → p ^^^ q = q) ∧ (p ≠ 0 → p ^^^ q ≠ p ∧ p ^^^ q ≠ q) ∧
      (p ^^^ q < codeLength s.messageLength → ∃ w, call.working = some w ∧
        w = flipAt (flipAt (flipAt d p) q) (p ^^^ q) ∧ popcount w % 2 = 1) ∧
      u.decRes =
        { valid := true,
          status := some (if codeLength s.messageLength ≤ p ^^^ q then .syndromeOutOfRange else .globalParityMismatch),
          len := none, data := none }) ∧
  decodeCodeword 8 (flipAt (flipAt (seq 13 0x00FF) 3) 9) = .ok (.err .globalParityMismatch) ∧
  decodeCodeword 8 (flipAt (flipAt (seq 13 0x00FF) 5) 8) = .ok (.err .syndromeOutOfRange)

/-- R166: three flips can return a wrong message with status OK: positions 1, 2 and 4 of the codeword `0x00FF` of `0x0F`; the
"corrected" word is the codeword of `0x07`. -/
def Obligations.TripleFlipExample : Prop :=
  flipAt (flipAt (flipAt (seq 13 0x00FF) 1) 2) 4 = seq 13 0x00E9 ∧
  encodeMessage 8 (seq 8 0x0F) = .ok (seq 13 0x00FF) ∧ encodeMessage 8 (seq 8 0x07) = .ok (seq 13 0x0069) ∧
  (∃ call, decodeCall 8 (seq 13 0x00E9) = .ok call ∧ call.syndrome = some 7 ∧ call.working = some (seq 13 0x0069)) ∧
  popcount (seq 13 0x0069) % 2 = 0 ∧
  ∀ s : State, s.messageLength = 8 →
    exec (.dec (seq 13 0x00E9)) s = .next { s with
      decRes := { valid := true, status := some .ok, len := some 8, data := some (seq 13 0x0007) } }

/-- The source's one concrete scenario (spec/95_test_vectors.md, V-S1 to V-S4), on the default instance. -/
def Obligations.SourceScenario : Prop :=
  ∀ s : State, s.messageLength = 8 →
    exec (.enc (seq 8 0x0F)) s = .next { s with
      encRes := { valid := true, len := some 13, data := some (seq 13 0x00FF) } } ∧
    exec (.dec (seq 13 0x00FF)) s = .next { s with
      decRes := { valid := true, status := some .ok, len := some 8, data := some (seq 13 0x000F) } } ∧
    exec (.dec (seq 13 0x00DF)) s = .next { s with
      decRes := { valid := true, status := some .ok, len := some 8, data := some (seq 13 0x000F) } } ∧
    exec (.dec (seq 13 0x02F7)) s = .next { s with
      decRes := { valid := true, status := some .globalParityMismatch, len := none, data := none } }

/-- R207: a codeword and the same codeword with one position `p`, `1 <= p < N`, complemented both give status OK; a host cannot tell
them apart, except for the all-zero codeword (R206): there the clean word gives `len = N` (R151), the corrected one `len = M`, and
every bit of `data` is 0 in both. -/
def Obligations.CorrectionInvisible : Prop :=
  ∀ (s : State) (w : BitSeq) (p : Nat), Admitted s.messageLength → isCodeword s.messageLength w = true →
    1 ≤ p → p < codeLength s.messageLength →
    ∃ t u, exec (.dec w) s = .next t ∧ exec (.dec (flipAt w p)) s = .next u ∧
      t.decRes.status = some .ok ∧ u.decRes.status = some .ok ∧
      (if isZero w then
        t.decRes.len = some (codeLength s.messageLength) ∧ u.decRes.len = some s.messageLength ∧
        t.decRes.data = some (zeros (codeLength s.messageLength)) ∧
        u.decRes.data = some (zeros (codeLength s.messageLength))
      else t = u)

/-! ### Errors, faults, frames (spec/60_exceptions.md, spec/10_state.md) -/

/-- R181, R182, R187: exactly when each error kind is reported; the range test comes first; an error has no payload; a syndrome is
never out of range when `N = 2^K`. -/
def Obligations.ErrorKindCauses : Prop :=
  ∀ (s : State) (cw : BitSeq), Admitted s.messageLength → cw.length = codeLength s.messageLength →
    ∃ t, exec (.dec cw) s = .next t ∧
      (t.decRes.status = some .syndromeOutOfRange ↔ codeLength s.messageLength ≤ indexXor cw) ∧
      (t.decRes.status = some .globalParityMismatch ↔ indexXor cw < codeLength s.messageLength ∧
        popcount (if indexXor cw = 0 then cw else flipAt cw (indexXor cw)) % 2 = 1) ∧
      (isZero cw = true → t.decRes.status = some .ok) ∧
      (t.decRes.status ≠ some .ok → t.decRes.len = none ∧ t.decRes.data = none) ∧
      (codeLength s.messageLength = 2 ^ checkCount s.messageLength →
        t.decRes.status ≠ some .syndromeOutOfRange)

/-- R34: the status codes 0, 1, 2 and the kinds they stand for; on an error there is no payload; 3 is never produced. -/
def Obligations.StatusCodes : Prop :=
  statusCode .ok = 0 ∧ statusCode .syndromeOutOfRange = 1 ∧ statusCode .globalParityMismatch = 2 ∧
  (∀ r, resultStatus (.ok r) = .ok) ∧
  resultStatus (.err .syndromeOutOfRange) = .syndromeOutOfRange ∧
  resultStatus (.err .globalParityMismatch) = .globalParityMismatch ∧
  errorText .syndromeOutOfRange = "syndrome out of range" ∧ errorText .globalParityMismatch = "global parity mismatch" ∧
  (∀ (s : State) (kind : DecodeError), (writeDecRes s (.err kind)).decRes =
    { valid := true, status := some (resultStatus (.err kind)), len := none, data := none }) ∧
  ∀ st : Status, statusCode st ≠ 3

/-- R184: an out-of-range access is an `IndexFault`, and no operation and no step ever ends in one; no operation faults at all. -/
def Obligations.IndexFaultUnreachable : Prop :=
  (∀ (x : BitSeq) (i : Nat), readBit x i = .error .indexFault ↔ x.length ≤ i) ∧
  (∀ (x : BitSeq) (i : Nat) (b : Bool), writeBit x i b = .error .indexFault ↔ x.length ≤ i) ∧
  (∀ (i : Instr) (s : State) (f : Fault), exec i s ≠ .fault f) ∧
  (∀ s : State, step s ≠ .fault .indexFault)

/-- R32, R192: the frame of `ENC`: only `ENC_RES` changes. -/
def Obligations.EncFrame : Prop :=
  ∀ (msg : BitSeq) (s t : State), exec (.enc msg) s = .next t →
    t.messageLength = s.messageLength ∧ t.decRes = s.decRes ∧ t.program = s.program ∧ t.reads = s.reads

/-- R32, R188, R192: the frame of `DEC`, on a success and on an error: only `DEC_RES` changes. -/
def Obligations.DecFrame : Prop :=
  ∀ (cw : BitSeq) (s t : State), exec (.dec cw) s = .next t →
    t.messageLength = s.messageLength ∧ t.encRes = s.encRes ∧ t.program = s.program ∧ t.reads = s.reads

/-- R37: no operation reads a latch: on two states of one instance the same request completes on both or on neither, with the same
result. -/
def Obligations.ResultsIgnoreLatches : Prop :=
  ∀ (i : Instr) (s u t : State), s.messageLength = u.messageLength → exec i s = .next t →
    ∃ v, exec i u = .next v ∧
      (match i with
        | .enc _ => v.encRes = t.encRes
        | .dec _ => v.decRes = t.decRes)

/-- R189, R204: a later request to the same unit overwrites the earlier result whole; no error is sticky. -/
def Obligations.LaterRequestOverwrites : Prop :=
  ∀ (i j : Instr) (s t : State), sameUnit i j = true → exec i s = .next t → exec j t = exec j s

/-- R7, U1: an instance whose `M` is not admitted is refused, whatever is asked of it. -/
def Obligations.NonAdmittedRefused : Prop :=
  ∀ s : State, ¬ Admitted s.messageLength →
    step s = .refused .instanceNotAdmitted ∧ ∀ i, exec i s = .refused .instanceNotAdmitted

/-- R85, U4: what has not the port's width is no request: an operand is refused by name, and so is a word, with the decoder's
reason. -/
def Obligations.WrongWidthRefused : Prop :=
  ∀ s : State, Admitted s.messageLength →
    (∀ i, ¬ WellFormed s.messageLength i → exec i s = .refused .operandWidth) ∧
    (∀ w rest why, s.program = .request w :: rest → decode s.messageLength w = .error why →
      step s = .refused (.notARequest why))

/-! ### The host's side (spec/10_state.md R39, R35; spec/70_reset_and_hazards.md) -/

/-- R33, R39: a read returns the field's current value, field by field, and changes nothing of the block. What it returned joins
the host's record (log entry 3, DESIGN CHOICE). -/
def Obligations.ReadReturnsCurrentValue : Prop :=
  ∀ (s : State) (f : Field) (rest : List HostEvent), Admitted s.messageLength → s.program = .readField f :: rest →
    let answer (v : ReadValue) := Host.Outcome.next { s with program := rest, reads := s.reads ++ [(f, v)] }
    match f with
    | .encValid => step s = answer (.bit s.encRes.valid)
    | .encLen => ∀ n, s.encRes.len = some n → step s = answer (.number n)
    | .encData => ∀ d, s.encRes.data = some d → step s = answer (.bits d)
    | .decValid => step s = answer (.bit s.decRes.valid)
    | .decStatus => ∀ st, s.decRes.status = some st → step s = answer (.status st)
    | .decLen => ∀ n, s.decRes.len = some n → step s = answer (.number n)
    | .decData => ∀ d, s.decRes.data = some d → step s = answer (.bits d)

/-- R35, R185: a read faults exactly when the field holds no value: any field but `valid` of a latch that is not valid, and `len` and
`data` of `DEC_RES` after an error. That such a read stops the machine, as this fault, is the model's (log entry 4, DEDUCED: R185
gives the read no value, U5 says to refuse it, R212 gives the run no end state). -/
def Obligations.ReadOfNoValueFaults : Prop :=
  ∀ (s : State) (f : Field) (rest : List HostEvent), stateOk s = true → s.program = .readField f :: rest →
    (step s = .fault .hostReadOfNoValue ↔
      match f with
      | .encValid => False
      | .encLen => s.encRes.valid = false
      | .encData => s.encRes.valid = false
      | .decValid => False
      | .decStatus => s.decRes.valid = false
      | .decLen => s.decRes.valid = false ∨ s.decRes.status ≠ some .ok
      | .decData => s.decRes.valid = false ∨ s.decRes.status ≠ some .ok)

/-- The model's convention (log entry 5, DEDUCED from R33, R87 and R185): `RD` of a latch reads its fields in the order of R33,
returns them all when each holds a value, and faults when one holds none. -/
def Obligations.LatchReads : Prop :=
  ∀ (s : State) (l : Latch) (rest : List HostEvent), Admitted s.messageLength → s.program = .readLatch l :: rest →
    match l with
    | .encRes =>
      (s.encRes.len = none ∨ s.encRes.data = none → step s = .fault .hostReadOfNoValue) ∧
      (∀ n d, s.encRes.len = some n → s.encRes.data = some d →
        step s = .next { s with
          program := rest
          reads := s.reads ++ [(.encValid, .bit s.encRes.valid), (.encLen, .number n), (.encData, .bits d)] })
    | .decRes =>
      (s.decRes.status = none ∨ s.decRes.len = none ∨ s.decRes.data = none → step s = .fault .hostReadOfNoValue) ∧
      (∀ st n d, s.decRes.status = some st → s.decRes.len = some n → s.decRes.data = some d →
        step s = .next { s with
          program := rest
          reads := s.reads ++ [(.decValid, .bit s.decRes.valid), (.decStatus, .status st), (.decLen, .number n),
            (.decData, .bits d)] })

/-- R40: the state after reset, on every instance and on the default one (R5: `M = 8`). The empty program and record of reads are the
model's own (log entry 3). -/
def Obligations.ResetState : Prop :=
  (∀ M : Nat, State.resetOf M =
    { messageLength := M, encRes := { valid := false, len := none, data := none },
      decRes := { valid := false, status := none, len := none, data := none }, program := [], reads := [] }) ∧
  State.reset = State.resetOf 8

/-- R200: reset at any time puts both latches in the reset state, does not change `M`, and a request it cut short leaves no trace.
That reset is an event of the host with the cut request as its argument, and that it keeps `program` and `reads`, is the model's
choice (log entries 3 and 9, DESIGN CHOICE). -/
def Obligations.ResetClearsLatches : Prop :=
  ∀ (s : State) (cut : Option BitSeq) (rest : List HostEvent), Admitted s.messageLength →
    s.program = .reset cut :: rest →
    step s = .next { s with
      program := rest
      encRes := { valid := false, len := none, data := none }
      decRes := { valid := false, status := none, len := none, data := none } }

/-! ### Whole-machine rules -/

/-- R31: `M`, `K` and `N` are constants of an instance: no step writes them. -/
def Obligations.ParametersConstant : Prop :=
  ∀ s t : State, step s = .next t →
    t.messageLength = s.messageLength ∧ checkCount t.messageLength = checkCount s.messageLength ∧
    codeLength t.messageLength = codeLength s.messageLength

/-- R32, R41: `ENC_RES` is written only by an `ENC` request and by reset, `DEC_RES` only by a `DEC` request and by reset. -/
def Obligations.LatchesWrittenByOwnUnit : Prop :=
  ∀ s t : State, step s = .next t →
    ((∀ e ∈ s.program.head?, isEncRequest e = false ∧ isReset e = false) → t.encRes = s.encRes) ∧
    ((∀ e ∈ s.program.head?, isDecRequest e = false ∧ isReset e = false) → t.decRes = s.decRes)

/-- The invariant holds at reset, on every admitted instance. -/
def Obligations.ResetStateOk : Prop :=
  (∀ M : Nat, Admitted M → stateOk (State.resetOf M) = true) ∧ stateOk State.reset = true

/-- R33, R34, R35, R136: every step keeps the latches well formed: `ENC_RES.data` is always a valid codeword, every field has its
legal values, and a field that holds no value never appears as one that does. -/
def Obligations.StepKeepsStateOk : Prop :=
  ∀ s t : State, stateOk s = true → step s = .next t → stateOk t = true

/-- R67(b): after a sequence of requests the latches hold the result of its last `ENC` and of its last `DEC`. -/
def Obligations.LatchesHoldLastResults : Prop :=
  ∀ (s : State) (reqs : List Instr), Admitted s.messageLength → (∀ i ∈ reqs, WellFormed s.messageLength i) →
    s.program = reqs.map (fun i => .request (encode i)) →
    ∃ t : State, Host.Core.run Sys2Proof.core reqs.length s = .next t ∧ t.program = [] ∧ t.reads = s.reads ∧
      (lastEnc reqs = none → t.encRes = s.encRes) ∧
      (∀ m, lastEnc reqs = some m → ∃ u, exec (.enc m) s = .next u ∧ t.encRes = u.encRes) ∧
      (lastDec reqs = none → t.decRes = s.decRes) ∧
      (∀ c, lastDec reqs = some c → ∃ u, exec (.dec c) s = .next u ∧ t.decRes = u.decRes)

/-- R67(c), R192: requests to different instances commute: every interleaving of the same steps gives the same instances. -/
def Obligations.InterleavingsCommute : Prop :=
  ∀ (ks js : List Nat) (sys sys' : List State), ks.Perm js → runInterleaving ks sys = .next sys' →
    runInterleaving js sys = .next sys'

/-- R210, R212: a program of events that each complete ends, after one step for each of them. -/
def Obligations.RunsEnd : Prop :=
  ∀ s : State, Admitted s.messageLength → (∀ e ∈ s.program, completes s.messageLength e = true) →
    ∃ t : State, Host.Core.run Sys2Proof.core s.program.length s = .next t ∧ runEnded t = true
end

