-- ==== Sys2Proof/Laws/Bits.lean ====
section
/-! SUPPORT. What each operation over bit sequences does: one lemma per operation, cited instead of unfolding it. -/

namespace Sys2Proof.Machine

/-! ### Results of checked operations -/

@[simp] theorem except_ok_bind {α β : Type} (a : α) (f : α → Except Fault β) : (Except.ok a >>= f) = f a := rfl
@[simp] theorem except_error_bind {α β : Type} (e : Fault) (f : α → Except Fault β) :
    ((Except.error e : Except Fault α) >>= f) = .error e := rfl
@[simp] theorem except_pure {α : Type} (a : α) : (pure a : Except Fault α) = .ok a := rfl

/-! ### Bits by position -/

theorem bitAt_of_lt {w : BitSeq} {p : Nat} (h : p < w.length) : bitAt w p = w[p] := by simp [bitAt, h]

theorem bitAt_of_le {w : BitSeq} {p : Nat} (h : w.length ≤ p) : bitAt w p = false := by simp [bitAt, h]

@[simp] theorem bitAt_zero_cons (b : Bool) (w : BitSeq) : bitAt (b :: w) 0 = b := rfl
@[simp] theorem bitAt_succ_cons (b : Bool) (w : BitSeq) (p : Nat) : bitAt (b :: w) (p + 1) = bitAt w p := rfl

theorem bitAt_map_range {n p : Nat} (f : Nat → Bool) (h : p < n) : bitAt ((List.range n).map f) p = f p := by
  simp [bitAt, h]

@[simp] theorem bitAt_zeros (n p : Nat) : bitAt (zeros n) p = false := by
  by_cases h : p < n <;> simp [bitAt, zeros, h]

@[simp] theorem length_zeros (n : Nat) : (zeros n).length = n := by simp [zeros]

theorem bitAt_set (w : BitSeq) (i p : Nat) (b : Bool) :
    bitAt (w.set i b) p = if p = i ∧ p < w.length then b else bitAt w p := by
  by_cases hp : p < w.length
  · by_cases hi : p = i
    · subst hi; simp [bitAt, hp]
    · have : i ≠ p := fun h => hi h.symm
      simp [bitAt, hi, this]
  · simp [bitAt, hp]

/-- Sequences of one length with the same bits are the same sequence (R9). -/
theorem bitSeq_ext {a b : BitSeq} (hl : a.length = b.length) (h : ∀ p < a.length, bitAt a p = bitAt b p) : a = b := by
  refine List.ext_getElem hl fun p hp hq => ?_
  rw [← bitAt_of_lt hp, ← bitAt_of_lt hq]
  exact h p hp

theorem eq_map_range (w : BitSeq) : w = (List.range w.length).map (bitAt w) :=
  bitSeq_ext (by simp) fun p hp => (bitAt_map_range _ hp).symm

@[simp] theorem length_flipAt (w : BitSeq) (p : Nat) : (flipAt w p).length = w.length := by simp [flipAt]

theorem bitAt_flipAt {w : BitSeq} {p : Nat} (q : Nat) (h : p < w.length) :
    bitAt (flipAt w p) q = (bitAt w q ^^ decide (q = p)) := by
  by_cases hq : q = p
  · subst hq; simp [flipAt, bitAt_set, h]
  · simp [flipAt, bitAt_set, hq]

theorem flipAt_flipAt {w : BitSeq} {p : Nat} (h : p < w.length) : flipAt (flipAt w p) p = w :=
  bitSeq_ext (by simp) fun q _ => by
    rw [bitAt_flipAt q (by simpa using h), bitAt_flipAt q h]
    cases bitAt w q <;> simp

/-! ### Checked accesses (R184) -/

theorem readBit_eq {s : BitSeq} {i : Nat} (h : i < s.length) : readBit s i = .ok (bitAt s i) := by
  simp [readBit, bitAt, h]

theorem readBit_fault {s : BitSeq} {i : Nat} (h : s.length ≤ i) : readBit s i = .error .indexFault := by
  simp [readBit, h]

theorem writeBit_eq {s : BitSeq} {i : Nat} (b : Bool) (h : i < s.length) : writeBit s i b = .ok (s.set i b) := by
  simp [writeBit, h]

theorem toggleBit_eq {s : BitSeq} {i : Nat} (h : i < s.length) : toggleBit s i = .ok (flipAt s i) := by
  simp [toggleBit, readBit_eq h, writeBit_eq _ h, flipAt]

/-! ### Whole sequences -/

theorem isZero_iff (s : BitSeq) : isZero s = true ↔ ∀ p, bitAt s p = false := by
  constructor
  · intro h p
    by_cases hp : p < s.length
    · have := List.all_eq_true.mp h _ (List.getElem_mem hp)
      simpa [bitAt_of_lt hp] using this
    · exact bitAt_of_le (by omega)
  · intro h
    refine List.all_eq_true.mpr fun b hb => ?_
    obtain ⟨p, hp, rfl⟩ := List.getElem_of_mem hb
    have := h p
    rw [bitAt_of_lt hp] at this
    simp [this]

theorem eq_zeros_of_isZero {s : BitSeq} (h : isZero s = true) : s = zeros s.length :=
  bitSeq_ext (by simp) fun p _ => by simp [(isZero_iff s).mp h p]

@[simp] theorem isZero_zeros (n : Nat) : isZero (zeros n) = true := (isZero_iff _).mpr fun p => bitAt_zeros n p

theorem popcount_cons (b : Bool) (s : BitSeq) : popcount (b :: s) = popcount s + b.toNat := by
  cases b <;> simp [popcount]

theorem parity_cons (b : Bool) (s : BitSeq) : parity (b :: s) = (b ^^ parity s) := by
  have h2 : popcount s % 2 = 0 ∨ popcount s % 2 = 1 := by omega
  cases b
  · simp [parity, popcount_cons]
  · rcases h2 with h | h
    · have : (popcount s + 1) % 2 = 1 := by omega
      simp [parity, popcount_cons, h, this]
    · have : (popcount s + 1) % 2 = 0 := by omega
      simp [parity, popcount_cons, h, this]

@[simp] theorem parity_nil : parity [] = false := rfl

@[simp] theorem parity_zeros (n : Nat) : parity (zeros n) = false := by
  induction n with
  | zero => rfl
  | succ n ih => rw [zeros, List.replicate_succ, parity_cons]; simpa [zeros] using ih

/-- Complementing one bit changes the parity of a word. -/
theorem parity_flipAt {w : BitSeq} {p : Nat} (h : p < w.length) : parity (flipAt w p) = !parity w := by
  induction w generalizing p with
  | nil => simp at h
  | cons b w ih =>
    cases p with
    | zero => simp [flipAt, parity_cons]
    | succ p =>
      have := ih (p := p) (by simpa using h)
      simp only [flipAt, bitAt_succ_cons, List.set_cons_succ, parity_cons] at this ⊢
      rw [this]; cases b <;> simp

theorem length_zext {n : Nat} {s : BitSeq} (h : s.length ≤ n) : (zext n s).length = n := by
  simp [zext]; omega

theorem zext_of_length {n : Nat} {s : BitSeq} (h : s.length = n) : zext n s = s := by
  simp [zext, h, zeros]

theorem bitAt_zext (n : Nat) (s : BitSeq) (p : Nat) : bitAt (zext n s) p = bitAt s p := by
  by_cases h : p < s.length
  · simp [zext, bitAt, List.getElem?_append, h]
  · have h1 : bitAt s p = false := bitAt_of_le (by omega)
    have h2 : bitAt (zext n s) p = bitAt (zeros (n - s.length)) (p - s.length) := by
      simp [zext, bitAt, List.getElem?_append, h]
    rw [h1, h2, bitAt_zeros]

@[simp] theorem length_xorSeq (a b : BitSeq) : (xorSeq a b).length = min a.length b.length := by simp [xorSeq]

theorem bitAt_xorSeq {a b : BitSeq} (h : a.length = b.length) (p : Nat) :
    bitAt (xorSeq a b) p = (bitAt a p ^^ bitAt b p) := by
  by_cases hp : p < a.length
  · have hq : p < b.length := h ▸ hp
    rw [bitAt_of_lt (by simp [xorSeq]; omega), bitAt_of_lt hp, bitAt_of_lt hq]; simp [xorSeq]
  · rw [bitAt_of_le (by simp [xorSeq]; omega), bitAt_of_le (by omega), bitAt_of_le (by omega)]; rfl

/-! ### Values (R10) -/

@[simp] theorem length_seq (n v : Nat) : (seq n v).length = n := by
  induction n generalizing v with
  | zero => rfl
  | succ n ih => simp [seq, ih]

theorem val_lt (s : BitSeq) : val s < 2 ^ s.length := by
  induction s with
  | nil => simp [val]
  | cons b s ih => cases b <;> simp [val, pow_succ] <;> omega

theorem testBit_val (s : BitSeq) (p : Nat) : (val s).testBit p = bitAt s p := by
  induction s generalizing p with
  | nil => simp [val, bitAt]
  | cons b s ih =>
    cases p with
    | zero => cases b <;> simp [val, Nat.testBit_zero]
    | succ p =>
      have : val (b :: s) / 2 = val s := by cases b <;> simp [val]; omega
      rw [Nat.testBit_succ, this, ih, bitAt_succ_cons]

theorem bitAt_seq {n p : Nat} (v : Nat) (h : p < n) : bitAt (seq n v) p = v.testBit p := by
  induction n generalizing v p with
  | zero => omega
  | succ n ih =>
    cases p with
    | zero => simp [seq, Nat.testBit_zero]; rcases Nat.mod_two_eq_zero_or_one v with h | h <;> simp [h]
    | succ p => rw [seq, bitAt_succ_cons, ih _ (by omega), Nat.testBit_succ]

/-! ### Parities over position lists -/

theorem xorOver_append (w : BitSeq) (ps qs : List Nat) : xorOver w (ps ++ qs) = (xorOver w ps ^^ xorOver w qs) := by
  induction ps with
  | nil => simp [xorOver]
  | cons p ps ih => simp [xorOver, ih]

theorem xorOver_congr {v w : BitSeq} {ps : List Nat} (h : ∀ p ∈ ps, bitAt v p = bitAt w p) :
    xorOver v ps = xorOver w ps := by
  induction ps with
  | nil => rfl
  | cons p ps ih => simp [xorOver, h p (by simp), ih fun q hq => h q (by simp [hq])]

/-- A write at a position outside `ps` is not seen by the parity over `ps`. -/
theorem xorOver_set {w : BitSeq} {ps : List Nat} {i : Nat} (b : Bool) (h : i ∉ ps) :
    xorOver (w.set i b) ps = xorOver w ps :=
  xorOver_congr fun p hp => by
    have : p ≠ i := fun e => h (e ▸ hp)
    simp [bitAt_set, this]

theorem xorOver_zeros (n : Nat) (ps : List Nat) : xorOver (zeros n) ps = false := by
  induction ps with
  | nil => rfl
  | cons p ps ih => simp [xorOver, ih]

/-- A parity over a filtered list splits where the filter is an exclusive or. -/
theorem xorOver_filter_xor (w : BitSeq) (ps : List Nat) (f g k : Nat → Bool) (h : ∀ p ∈ ps, f p = (g p ^^ k p)) :
    xorOver w (ps.filter f) = (xorOver w (ps.filter g) ^^ xorOver w (ps.filter k)) := by
  induction ps with
  | nil => rfl
  | cons p ps ih =>
    have h1 := h p (by simp)
    have h2 := ih fun q hq => h q (by simp [hq])
    cases hg : g p <;> cases hk : k p <;> simp [hg, hk] at h1 <;>
      simp [h1, hg, hk, xorOver, h2, Bool.xor_left_comm]

theorem xorOver_range_eq (w : BitSeq) {n i : Nat} (h : i < n) :
    xorOver w ((List.range n).filter (· == i)) = bitAt w i := by
  have : (List.range n).filter (· == i) = [i] := by
    rw [List.filter_beq, List.count_eq_one_of_mem List.nodup_range (by simpa using h)]; rfl
  rw [this]; simp [xorOver]

theorem xorOver_xorSeq {a b : BitSeq} (h : a.length = b.length) (ps : List Nat) :
    xorOver (xorSeq a b) ps = (xorOver a ps ^^ xorOver b ps) := by
  induction ps with
  | nil => rfl
  | cons p ps ih => simp [xorOver, ih, bitAt_xorSeq h, Bool.xor_left_comm]

/-- The parity of a word is the exclusive or of all its bits. -/
theorem parity_eq_xorOver (w : BitSeq) : parity w = xorOver w (List.range w.length) := by
  have shift : ∀ (b : Bool) (w : BitSeq) (ps : List Nat), xorOver (b :: w) (ps.map Nat.succ) = xorOver w ps := by
    intro b w ps
    induction ps with
    | nil => rfl
    | cons p ps ih => simp [xorOver, ih]
  induction w with
  | nil => rfl
  | cons b w ih => rw [parity_cons, ih, List.length_cons, List.range_succ_eq_map, xorOver, shift]; rfl

theorem parity_eq_first_xor {w : BitSeq} (h : 0 < w.length) : parity w = (bitAt w 0 ^^ parity (w.drop 1)) := by
  cases w with
  | nil => simp at h
  | cons b w => simp [parity_cons]

theorem mem_group {n i j : Nat} : j ∈ group n i ↔ j < n ∧ j ≠ i ∧ i &&& j ≠ 0 := by
  simp [group, inGroup]

end Sys2Proof.Machine
end

