-- ==== Sys2Proof/Laws/Codec.lean ====
section
/-! SUPPORT. What each step of the encoder and the decoder does, in closed form: one lemma per shared operation
(spec/41_encoder.md R132 to R135, spec/42_decoder.md R152 to R159, spec/40_helpers.md R105, R106). -/

namespace Sys2Proof.Machine

/-! ### Counting message positions -/

theorem filter_range_succ (n : Nat) (f : Nat → Bool) :
    (List.range (n + 1)).filter f = (List.range n).filter f ++ (if f n then [n] else []) := by
  rw [List.range_succ, List.filter_append]
  by_cases h : f n <;> simp [h]

theorem length_messagePositions_succ (n : Nat) :
    (messagePositions (n + 1)).length = (messagePositions n).length + if role n = .message then 1 else 0 := by
  rw [messagePositions, filter_range_succ]
  by_cases h : role n = .message <;> simp [messagePositions, h]

theorem length_messagePositions_mono {m n : Nat} (h : m ≤ n) :
    (messagePositions m).length ≤ (messagePositions n).length := by
  induction h with
  | refl => exact le_refl _
  | step _ ih => rw [length_messagePositions_succ]; omega

/-! ### Placement (R132) -/

/-- The bit that placement puts at position `p`: a message position takes the payload bit whose index is the number of message
positions before it. -/
def placedBit (w m : BitSeq) (p : Nat) : Bool :=
  if role p = .message then bitAt m (messagePositions p).length else bitAt w p

theorem isPowerOfTwo_eq_role {p : Nat} (h : p ≠ 0) : isPowerOfTwo p = !decide (role p = .message) := by
  by_cases hp : isPowerOfTwo p <;> simp [role, h, hp]

theorem placeAt_fold {n : Nat} {w m : BitSeq} (hw : w.length = n) (hm : (messagePositions n).length ≤ m.length) :
    ∀ k, k < n → (List.range' 1 k).foldlM (placeAt m) (w, 0)
      = .ok ((List.range n).map (fun p => if p ≤ k then placedBit w m p else bitAt w p), (messagePositions (k + 1)).length) := by
  intro k
  induction k with
  | zero =>
    intro _
    have h1 : (messagePositions 1).length = 0 := by decide
    have h2 : w = (List.range n).map (fun p => if p ≤ 0 then placedBit w m p else bitAt w p) := by
      refine bitSeq_ext (by simp [hw]) fun p hp => ?_
      rw [bitAt_map_range _ (by omega)]
      by_cases h0 : p = 0
      · subst h0; simp [placedBit, role]
      · simp [h0]
    rw [h1]; simp only [List.range'_zero, List.foldlM_nil, except_pure]; rw [← h2]
  | succ k ih =>
    intro hk
    have hne : k + 1 ≠ 0 := by omega
    rw [List.range'_concat, List.foldlM_append, ih (by omega)]
    simp only [except_ok_bind, List.foldlM_cons, List.foldlM_nil, Nat.one_mul]
    rw [length_messagePositions_succ (k + 1), Nat.add_comm 1 k]
    by_cases hr : role (k + 1) = .message
    · have hlt : (messagePositions (k + 1)).length < m.length := by
        have h3 := length_messagePositions_mono (show k + 2 ≤ n by omega)
        have h4 := length_messagePositions_succ (k + 1)
        simp only [hr, if_true] at h4
        have : k + 1 + 1 = k + 2 := rfl
        rw [this] at h4; omega
      simp only [placeAt, isPowerOfTwo_eq_role hne, hr, decide_true, Bool.not_true, Bool.false_eq_true, if_false, if_true,
        readBit_eq hlt, except_ok_bind]
      rw [writeBit_eq _ (by simp; omega)]
      simp only [except_ok_bind, except_pure]
      congr 2
      refine bitSeq_ext (by simp) fun p hp => ?_
      simp only [List.length_set, List.length_map, List.length_range] at hp
      rw [bitAt_set, bitAt_map_range _ hp, bitAt_map_range _ hp]
      by_cases hpk : p = k + 1
      · subst hpk; simp [hp, placedBit, hr]
      · by_cases h5 : p ≤ k
        · simp [hpk, h5, show p ≤ k + 1 by omega]
        · simp [hpk, h5, show ¬ p ≤ k + 1 by omega]
    · simp only [placeAt, isPowerOfTwo_eq_role hne, hr, decide_false, Bool.not_false, if_true, except_pure, except_ok_bind,
        if_false, Nat.add_zero]
      congr 2
      refine bitSeq_ext (by simp) fun p hp => ?_
      simp only [List.length_map, List.length_range] at hp
      rw [bitAt_map_range _ hp, bitAt_map_range _ hp]
      by_cases hpk : p = k + 1
      · subst hpk; simp [placedBit, hr]
      · by_cases h5 : p ≤ k
        · simp [h5, show p ≤ k + 1 by omega]
        · simp [h5, show ¬ p ≤ k + 1 by omega]

/-- R132 in closed form: no access is out of range while the message has a bit for every message position. -/
theorem place_eq {n : Nat} {w m : BitSeq} (hn : 0 < n) (hw : w.length = n) (hm : (messagePositions n).length ≤ m.length) :
    place n w m = .ok ((List.range n).map (placedBit w m)) := by
  have h := placeAt_fold hw hm (n - 1) (by omega)
  rw [place, h]
  simp only [except_ok_bind, except_pure]
  congr 1
  refine List.map_congr_left fun p hp => ?_
  have : p ≤ n - 1 := by have := List.mem_range.mp hp; omega
  simp [this]

/-! ### Check bits (R133, R134) -/

theorem checkAt_fold {i : Nat} (js : List Nat) (w : BitSeq) (hi : i < w.length) (hjs : ∀ j ∈ js, j < w.length) :
    js.foldlM (checkAt i) w = .ok (w.set i (bitAt w i ^^ xorOver w (js.filter (inGroup i)))) := by
  induction js generalizing w with
  | nil =>
    have : w = w.set i (bitAt w i) := bitSeq_ext (by simp) fun p hp => by
      rw [bitAt_set]; by_cases h : p = i <;> simp [h, hp]
    simpa [xorOver] using this
  | cons j js ih =>
    have hj : j < w.length := hjs j (by simp)
    have hjs' : ∀ k ∈ js, k < w.length := fun k hk => hjs k (by simp [hk])
    rw [List.foldlM_cons]
    by_cases hg : inGroup i j
    · have hji : i ∉ (js.filter (inGroup i)) := fun hmem => by simp [inGroup] at hmem
      simp only [checkAt, hg, if_true, readBit_eq hj, except_ok_bind, except_pure, List.filter_cons_of_pos, xorOver]
      by_cases hb : bitAt w j
      · simp only [hb, if_true, toggleBit_eq hi, except_ok_bind]
        rw [ih (flipAt w i) (by simpa using hi) (by simpa using hjs'), bitAt_flipAt _ hi]
        rw [flipAt, xorOver_set _ hji, List.set_set]
        cases bitAt w i <;> simp
      · simp only [hb, Bool.false_eq_true, if_false, except_ok_bind, Bool.false_xor]
        exact ih w hi hjs'
    · simp only [checkAt, hg, Bool.false_eq_true, if_false, except_pure, except_ok_bind, not_false_eq_true,
        List.filter_cons_of_neg]
      exact ih w hi hjs'

/-- R134 in closed form: `W[i]` gets the exclusive or of its old bit and of the bits of its group. -/
theorem check_eq {n i : Nat} {w : BitSeq} (hw : w.length = n) (hi : i < n) :
    check n w i = .ok (w.set i (bitAt w i ^^ xorOver w (group n i))) :=
  checkAt_fold _ w (hw ▸ hi) fun j hj => by rw [hw]; exact List.mem_range.mp hj

/-- R133 in closed form, for check positions none of which is in another's group: each gets the parity of its own group. -/
theorem checksInOrder_eq {n : Nat} (order : List Nat) (w : BitSeq) (hw : w.length = n) (hlt : ∀ i ∈ order, i < n)
    (hnd : order.Nodup) (hsep : ∀ i ∈ order, ∀ j ∈ order, inGroup i j = false) :
    checksInOrder n order w = .ok ((List.range n).map fun p =>
      if p ∈ order then (bitAt w p ^^ xorOver w (group n p)) else bitAt w p) := by
  induction order generalizing w with
  | nil =>
    have h := eq_map_range w
    rw [hw] at h
    simpa [checksInOrder] using h
  | cons i order ih =>
    have hi : i < n := hlt i (by simp)
    obtain ⟨hni, hnd'⟩ := List.nodup_cons.mp hnd
    rw [checksInOrder, List.foldlM_cons, check_eq hw hi, except_ok_bind]
    have h := ih (w.set i (bitAt w i ^^ xorOver w (group n i))) (by simp [hw]) (fun j hj => hlt j (by simp [hj])) hnd'
      (fun a ha b hb => hsep a (by simp [ha]) b (by simp [hb]))
    rw [checksInOrder] at h
    rw [h]
    congr 1
    refine List.map_congr_left fun p hp => ?_
    have hpn : p < n := List.mem_range.mp hp
    by_cases hpi : p = i
    · subst hpi
      simp [hni, bitAt_set, hw, hpn]
    · by_cases hpo : p ∈ order
      · have hng : i ∉ group n p := by
          have := hsep p (by simp [hpo]) i (by simp)
          simp [group, this]
        simp [hpo, bitAt_set, hpi, xorOver_set _ hng]
      · simp [hpo, bitAt_set, hpi]

theorem setGlobalParity_eq {w : BitSeq} (h : 0 < w.length) : setGlobalParity w = .ok (w.set 0 (parity w)) :=
  writeBit_eq _ h

/-! ### Extraction (R105, R106) -/

theorem collectAt_fold {rl : Role} {cw : BitSeq} (ps : List Nat) (hps : ∀ p ∈ ps, p < cw.length) (front rest : BitSeq)
    (hr : (ps.filter fun p => role p == rl).length ≤ rest.length) :
    ps.foldlM (collectAt rl cw) (front ++ rest, front.length)
      = .ok (front ++ (ps.filter fun p => role p == rl).map (bitAt cw) ++ rest.drop (ps.filter fun p => role p == rl).length,
          front.length + (ps.filter fun p => role p == rl).length) := by
  induction ps generalizing front rest with
  | nil => simp
  | cons p ps ih =>
    have hp : p < cw.length := hps p (by simp)
    have hps' : ∀ q ∈ ps, q < cw.length := fun q hq => hps q (by simp [hq])
    rw [List.foldlM_cons]
    by_cases hpr : role p = rl
    · have hb : (role p == rl) = true := by simp [hpr]
      have hbf : ((p :: ps).filter fun p => role p == rl) = p :: ps.filter fun p => role p == rl := by
        simp [hb]
      rw [hbf] at hr ⊢
      obtain _ | ⟨x, rest⟩ := rest
      · simp at hr
      · simp only [collectAt, hpr, if_true, readBit_eq hp, except_ok_bind]
        rw [writeBit_eq _ (by simp)]
        simp only [except_ok_bind, except_pure]
        have hset : (front ++ x :: rest).set front.length (bitAt cw p) = (front ++ [bitAt cw p]) ++ rest := by
          simp [List.set_append_right]
        have h := ih hps' (front ++ [bitAt cw p]) rest (by simpa using hr)
        rw [show (front ++ [bitAt cw p]).length = front.length + 1 by simp] at h
        rw [hset, h]
        simp; omega
    · have hbf : ((p :: ps).filter fun p => role p == rl) = ps.filter fun p => role p == rl := by
        simp [hpr]
      rw [hbf] at hr ⊢
      simp only [collectAt, hpr, if_false, except_pure, except_ok_bind]
      exact ih hps' front rest hr

/-- R105, R106 in closed form: no access is out of range when `n` is the number of positions of that role. -/
theorem collectBits_eq {rl : Role} {n : Nat} {cw : BitSeq}
    (hn : ((List.range cw.length).filter fun p => role p == rl).length = n) :
    collectBits rl n cw = .ok (((List.range cw.length).filter fun p => role p == rl).map (bitAt cw)) := by
  have h := collectAt_fold (rl := rl) (cw := cw) (List.range cw.length) (fun p hp => List.mem_range.mp hp) [] (zeros n)
    (by simp [hn])
  simp only [List.nil_append, List.length_nil, Nat.zero_add] at h
  rw [collectBits, h]
  simp [hn, zeros]

theorem extractMessageBits_eq {M : Nat} {cw : BitSeq} (h : (messagePositions cw.length).length = M) :
    extractMessageBits cw M = .ok ((messagePositions cw.length).map (bitAt cw)) := collectBits_eq h

theorem extractCheckBits_eq {M : Nat} {cw : BitSeq} (h : (checkPositions cw.length).length = minimumCheckBits M) :
    extractCheckBits cw M = .ok ((checkPositions cw.length).map (bitAt cw)) := collectBits_eq h

/-! ### Recomputed check bits and syndrome (R153, R154) -/

theorem recomputeAt_fold {c : BitSeq} {t : Nat} (js : List Nat) (hjs : ∀ j ∈ js, j < c.length) (prime : BitSeq)
    (ht : t < prime.length) :
    js.foldlM (recomputeAt c t) prime = .ok (prime.set t (bitAt prime t ^^ xorOver c (js.filter (inGroup (chk t))))) := by
  induction js generalizing prime with
  | nil =>
    have : prime = prime.set t (bitAt prime t) := bitSeq_ext (by simp) fun p hp => by
      rw [bitAt_set]; by_cases h : p = t <;> simp [h, hp]
    simpa [xorOver] using this
  | cons j js ih =>
    have hj : j < c.length := hjs j (by simp)
    have hjs' : ∀ k ∈ js, k < c.length := fun k hk => hjs k (by simp [hk])
    rw [List.foldlM_cons]
    by_cases hg : inGroup (chk t) j
    · simp only [recomputeAt, hg, if_true, readBit_eq hj, except_ok_bind, except_pure, List.filter_cons_of_pos, xorOver]
      by_cases hb : bitAt c j
      · simp only [hb, if_true, toggleBit_eq ht, except_ok_bind]
        rw [ih hjs' (flipAt prime t) (by simpa using ht), bitAt_flipAt _ ht, flipAt, List.set_set]
        cases bitAt prime t <;> simp
      · simp only [hb, Bool.false_eq_true, if_false, except_ok_bind, Bool.false_xor]
        exact ih hjs' prime ht
    · simp only [recomputeAt, hg, Bool.false_eq_true, if_false, except_pure, except_ok_bind, not_false_eq_true,
        List.filter_cons_of_neg]
      exact ih hjs' prime ht

/-- R153 in closed form: accumulator `t` is the parity of the group of `2^t` in the received word. -/
theorem recompute_eq {n k : Nat} {c : BitSeq} (hc : n ≤ c.length) :
    recompute n k c = .ok ((List.range k).map fun t => xorOver c (group n (chk t))) := by
  have key : ∀ m, m ≤ k → (List.range m).foldlM (fun prime t => (List.range n).foldlM (recomputeAt c t) prime) (zeros k)
      = .ok ((List.range k).map fun t => if t < m then xorOver c (group n (chk t)) else false) := by
    intro m
    induction m with
    | zero =>
      intro _
      simp [zeros, List.map_const']
    | succ m ih =>
      intro hm
      rw [List.range_succ, List.foldlM_append, ih (by omega)]
      simp only [except_ok_bind, List.foldlM_cons, List.foldlM_nil, except_pure]
      rw [recomputeAt_fold _ (fun j hj => by have := List.mem_range.mp hj; omega) _ (by simp; omega)]
      simp only [except_ok_bind]
      congr 1
      refine bitSeq_ext (by simp) fun p hp => ?_
      simp only [List.length_set, List.length_map, List.length_range] at hp
      rw [bitAt_set, bitAt_map_range _ hp, bitAt_map_range _ hp, bitAt_map_range _ (show m < k by omega)]
      by_cases hpm : p = m
      · subst hpm; simp [hp, group]
      · by_cases h5 : p < m
        · simp [hpm, h5, show p < m + 1 by omega]
        · simp [hpm, h5, show ¬ p < m + 1 by omega]
  rw [recompute, key k (le_refl k)]
  congr 1
  refine List.map_congr_left fun t ht => ?_
  simp [List.mem_range.mp ht]

/-- R154: the binary digits of the syndrome. -/
theorem testBit_syndromeOf {prime orig : BitSeq} (h : prime.length = orig.length) (t : Nat) :
    (syndromeOf prime orig).testBit t = (bitAt prime t ^^ bitAt orig t) := by
  rw [syndromeOf, testBit_val, bitAt_xorSeq h]

/-! ### The global-parity check and the end of a decode (R157, R159) -/

/-- R157 in closed form: `primeG` is the parity of the positions other than 0. -/
theorem adjustedParity_eq {w : BitSeq} (h : 0 < w.length) : adjustedParity w = .ok (parity w ^^ bitAt w 0) := by
  rw [adjustedParity, readBit_eq h]
  cases bitAt w 0 <;> simp

/-- R157, R159: the end of a decode whose working copy is `w`: an error exactly when `w` has odd weight. -/
theorem finishCall_eq {M : Nat} (call : DecodeCall) {w : BitSeq} (h : 0 < w.length)
    (hm : (messagePositions w.length).length = M) :
    finishCall M call w = .ok
      { call with
        fsm := call.fsm ++ [.globalParityCheck, if parity w then .uncorrectableParityMismatch else .success]
        working := some w
        primeG := some (parity w ^^ bitAt w 0)
        result := if parity w then .err .globalParityMismatch
          else .ok ((messagePositions w.length).map (bitAt w)) } := by
  rw [finishCall, adjustedParity_eq h, readBit_eq h]
  cases hp : parity w <;> cases hg : bitAt w 0 <;> simp [extractMessageBits_eq hm]

end Sys2Proof.Machine
end

