-- ==== Sys2Proof/Laws/PerInstr.lean ====
section
/-! SUPPORT. Statements about every operation as syntax, one lemma per constructor. -/

namespace Sys2Proof.Laws.RequestWidth

/-- R81, R82, R86: a request word is one bit wider than its operand, so it has the width of its format on exactly the instances whose
request it is. -/
def Statement (i : Instr) : Prop :=
  (encode i).length = i.operand.length + 1 ∧ ∀ M, (encode i).length = operandWidth M i + 1 ↔ WellFormed M i

theorem enc (msg : BitSeq) : Statement (.enc msg) := by
  simp [Statement, encode, Instr.operand, WellFormed]

theorem dec (cw : BitSeq) : Statement (.dec cw) := by
  simp [Statement, encode, Instr.operand, WellFormed]

end Sys2Proof.Laws.RequestWidth
end

