-- ==== Sys2Proof/Laws/State.lean ====
section
/-! SUPPORT. One lemma per field of `State` per update of it, so that no later proof unfolds a record update. -/

namespace Sys2Proof.Machine

@[simp] theorem writeEncRes_messageLength (s : State) (r : BitSeq) :
    (writeEncRes s r).messageLength = s.messageLength := rfl
@[simp] theorem writeEncRes_encRes (s : State) (r : BitSeq) :
    (writeEncRes s r).encRes =
      { valid := true, len := some r.length, data := some (zext (codeLength s.messageLength) r) } := rfl
@[simp] theorem writeEncRes_decRes (s : State) (r : BitSeq) : (writeEncRes s r).decRes = s.decRes := rfl
@[simp] theorem writeEncRes_program (s : State) (r : BitSeq) : (writeEncRes s r).program = s.program := rfl
@[simp] theorem writeEncRes_reads (s : State) (r : BitSeq) : (writeEncRes s r).reads = s.reads := rfl

@[simp] theorem writeDecRes_messageLength (s : State) (d : DecodeResult) :
    (writeDecRes s d).messageLength = s.messageLength := by cases d <;> rfl
@[simp] theorem writeDecRes_encRes (s : State) (d : DecodeResult) : (writeDecRes s d).encRes = s.encRes := by
  cases d <;> rfl
@[simp] theorem writeDecRes_decRes_ok (s : State) (r : BitSeq) :
    (writeDecRes s (.ok r)).decRes =
      { valid := true, status := some .ok, len := some r.length, data := some (zext (codeLength s.messageLength) r) } := rfl
@[simp] theorem writeDecRes_decRes_err (s : State) (e : DecodeError) :
    (writeDecRes s (.err e)).decRes =
      { valid := true, status := some (resultStatus (.err e)), len := none, data := none } := rfl
@[simp] theorem writeDecRes_program (s : State) (d : DecodeResult) : (writeDecRes s d).program = s.program := by
  cases d <;> rfl
@[simp] theorem writeDecRes_reads (s : State) (d : DecodeResult) : (writeDecRes s d).reads = s.reads := by
  cases d <;> rfl

@[simp] theorem resetInstance_messageLength (s : State) : (resetInstance s).messageLength = s.messageLength := rfl
@[simp] theorem resetInstance_encRes (s : State) : (resetInstance s).encRes = EncLatch.reset := rfl
@[simp] theorem resetInstance_decRes (s : State) : (resetInstance s).decRes = DecLatch.reset := rfl
@[simp] theorem resetInstance_program (s : State) : (resetInstance s).program = s.program := rfl
@[simp] theorem resetInstance_reads (s : State) : (resetInstance s).reads = s.reads := rfl

@[simp] theorem issueTableWord_messageLength (s : State) (n w : Nat) :
    (issueTableWord s n w).messageLength = s.messageLength := rfl
@[simp] theorem issueTableWord_encRes (s : State) (n w : Nat) : (issueTableWord s n w).encRes = s.encRes := rfl
@[simp] theorem issueTableWord_decRes (s : State) (n w : Nat) : (issueTableWord s n w).decRes = s.decRes := rfl
@[simp] theorem issueTableWord_reads (s : State) (n w : Nat) : (issueTableWord s n w).reads = s.reads := rfl

end Sys2Proof.Machine
end

