-- ==== Sys2Proof/Laws/Step.lean ====
section
/-! SUPPORT. What a step, an event and an operation can do, said once: inversion and completion lemmas. -/

namespace Sys2Proof.Machine

/-! ### Operands -/

theorem messageOperand_ok {s : State} {m x : BitSeq} :
    messageOperand s m = .ok x ↔ Admitted s.messageLength ∧ m.length = s.messageLength ∧ x = m := by
  unfold messageOperand portOperand
  by_cases h : Admitted s.messageLength
  · by_cases h2 : m.length = s.messageLength
    · rw [if_neg (not_not.mpr h), if_pos h2]
      exact ⟨fun e => ⟨h, h2, (Except.ok.inj e).symm⟩, fun e => by rw [e.2.2]⟩
    · rw [if_neg (not_not.mpr h), if_neg h2]
      exact ⟨nofun, fun e => absurd e.2.1 h2⟩
  · rw [if_pos h]
    exact ⟨nofun, fun e => absurd e.1 h⟩

theorem codewordOperand_ok {s : State} {c x : BitSeq} :
    codewordOperand s c = .ok x ↔ Admitted s.messageLength ∧ c.length = codeLength s.messageLength ∧ x = c := by
  unfold codewordOperand portOperand
  by_cases h : Admitted s.messageLength
  · by_cases h2 : c.length = codeLength s.messageLength
    · rw [if_neg (not_not.mpr h), if_pos h2]
      exact ⟨fun e => ⟨h, h2, (Except.ok.inj e).symm⟩, fun e => by rw [e.2.2]⟩
    · rw [if_neg (not_not.mpr h), if_neg h2]
      exact ⟨nofun, fun e => absurd e.2.1 h2⟩
  · rw [if_pos h]
    exact ⟨nofun, fun e => absurd e.1 h⟩

/-! ### The two meanings -/

/-- Everything `ENC` can do when it answers a next state. -/
theorem execEnc_next {m : BitSeq} {s t : State} (h : execEnc m s = .next t) :
    Admitted s.messageLength ∧ m.length = s.messageLength
      ∧ ∃ r, encodeMessage s.messageLength m = .ok r ∧ t = writeEncRes s r := by
  unfold execEnc at h
  split at h
  · cases h
  · rename_i x hx
    obtain ⟨ha, hl, rfl⟩ := messageOperand_ok.mp hx
    split at h
    · cases h
    · rename_i r hr
      exact ⟨ha, hl, r, hr, (Host.Outcome.next.inj h).symm⟩

/-- `ENC` completes as soon as `encode` does. -/
theorem execEnc_of_encodeMessage {m r : BitSeq} {s : State} (ha : Admitted s.messageLength)
    (hl : m.length = s.messageLength) (hr : encodeMessage s.messageLength m = .ok r) :
    execEnc m s = .next (writeEncRes s r) := by
  have hx : messageOperand s m = .ok m := messageOperand_ok.mpr ⟨ha, hl, rfl⟩
  simp [execEnc, hx, hr]

/-- Everything `DEC` can do when it answers a next state. -/
theorem execDec_next {c : BitSeq} {s t : State} (h : execDec c s = .next t) :
    Admitted s.messageLength ∧ c.length = codeLength s.messageLength
      ∧ ∃ res, decodeCodeword s.messageLength c = .ok res ∧ t = writeDecRes s res := by
  unfold execDec at h
  split at h
  · cases h
  · rename_i x hx
    obtain ⟨ha, hl, rfl⟩ := codewordOperand_ok.mp hx
    split at h
    · cases h
    · rename_i r hr
      exact ⟨ha, hl, r, hr, (Host.Outcome.next.inj h).symm⟩

/-- `DEC` completes as soon as `decode` does. -/
theorem execDec_of_decodeCodeword {c : BitSeq} {s : State} {res : DecodeResult} (ha : Admitted s.messageLength)
    (hl : c.length = codeLength s.messageLength) (hr : decodeCodeword s.messageLength c = .ok res) :
    execDec c s = .next (writeDecRes s res) := by
  have hx : codewordOperand s c = .ok c := codewordOperand_ok.mpr ⟨ha, hl, rfl⟩
  simp [execDec, hx, hr]

theorem decodeCodeword_of_decodeCall {M : Nat} {c : BitSeq} {call : DecodeCall} (h : decodeCall M c = .ok call) :
    decodeCodeword M c = .ok call.result := by simp [decodeCodeword, h]

/-! ### Events and steps -/

/-- Reads change the host's record alone, and return the fields' current values in order. -/
theorem readFields_next {fs : List Field} {s t : State} (h : readFields fs s = .next t) :
    ∃ vs, t = { s with reads := s.reads ++ vs } ∧ vs.map Prod.fst = fs
      ∧ ∀ p ∈ vs, fieldValue s p.1 = some p.2 := by
  induction fs generalizing s with
  | nil =>
    obtain rfl := Host.Outcome.next.inj h
    exact ⟨[], by simp, rfl, by simp⟩
  | cons f fs ih =>
    rw [readFields] at h
    split at h
    · rename_i v hv
      obtain ⟨vs, rfl, hm, hp⟩ := ih h
      refine ⟨(f, v) :: vs, by simp, by simp [hm], fun p hpm => ?_⟩
      rcases List.mem_cons.mp hpm with rfl | hpm
      · exact hv
      · rw [← hp p hpm]; cases p.1 <;> rfl
    · cases h

/-- A field's value depends on the latches alone. -/
theorem fieldValue_host (s : State) (program : List HostEvent) (reads : List (Field × ReadValue)) (f : Field) :
    fieldValue { s with program := program, reads := reads } f = fieldValue s f := by cases f <;> rfl

/-- Reads complete as soon as every field holds a value. -/
theorem readFields_of_values (vs : List (Field × ReadValue)) (s : State) (h : ∀ p ∈ vs, fieldValue s p.1 = some p.2) :
    readFields (vs.map Prod.fst) s = .next { s with reads := s.reads ++ vs } := by
  induction vs generalizing s with
  | nil => simp [readFields]
  | cons p vs ih =>
    rw [List.map_cons, readFields, h p (by simp)]
    simp only
    rw [ih _ fun q hq => (fieldValue_host s s.program _ q.1).trans (h q (by simp [hq]))]
    simp

/-- Reads stop as soon as one field holds no value (R185). -/
theorem readFields_of_none {fs : List Field} {s : State} (h : ∃ f ∈ fs, fieldValue s f = none) :
    readFields fs s = .fault .hostReadOfNoValue := by
  induction fs generalizing s with
  | nil => simp at h
  | cons f fs ih =>
    rw [readFields]
    cases hv : fieldValue s f with
    | none => rfl
    | some v =>
      obtain ⟨g, hg, hn⟩ := h
      rcases List.mem_cons.mp hg with rfl | hg
      · rw [hv] at hn; cases hn
      · exact ih ⟨g, hg, (fieldValue_host s s.program _ g).trans hn⟩

/-- Everything an event can do when it answers a next state. -/
theorem runEvent_next {e : HostEvent} {s t : State} (h : runEvent e s = .next t) :
    (∃ w i, e = .request w ∧ decode s.messageLength w = .ok i ∧ exec i s = .next t)
      ∨ (∃ vs, t = { s with reads := s.reads ++ vs } ∧ ((∃ f, e = .readField f) ∨ ∃ l, e = .readLatch l))
      ∨ (∃ cut, e = .reset cut ∧ t = resetInstance s) := by
  cases e with
  | request w =>
    simp only [runEvent, issueRequest] at h
    split at h
    · rename_i i hi
      exact .inl ⟨w, i, rfl, hi, h⟩
    · cases h
  | readField f =>
    obtain ⟨vs, ht, -⟩ := readFields_next h
    exact .inr (.inl ⟨vs, ht, .inl ⟨f, rfl⟩⟩)
  | readLatch l =>
    obtain ⟨vs, ht, -⟩ := readFields_next h
    exact .inr (.inl ⟨vs, ht, .inr ⟨l, rfl⟩⟩)
  | reset cut => exact .inr (.inr ⟨cut, rfl, (Host.Outcome.next.inj h).symm⟩)

/-- Everything a step can do when it answers a next state. -/
theorem step_next {s t : State} (h : step s = .next t) :
    Admitted s.messageLength ∧
      ((s.program = [] ∧ t = s)
        ∨ ∃ e rest, s.program = e :: rest ∧ runEvent e { s with program := rest } = .next t) := by
  unfold step at h
  split at h
  · rename_i ha
    refine ⟨ha, ?_⟩
    split at h
    · rename_i hp
      exact .inl ⟨hp, (Host.Outcome.next.inj h).symm⟩
    · rename_i e rest hp
      exact .inr ⟨e, rest, hp, h⟩
  · cases h

/-- A step with an event to run is that event, with the event taken off the program. -/
theorem step_cons {s : State} {e : HostEvent} {rest : List HostEvent} (ha : Admitted s.messageLength)
    (hp : s.program = e :: rest) : step s = runEvent e { s with program := rest } := by
  unfold step
  rw [if_pos ha]
  split
  · rename_i h; rw [hp] at h; cases h
  · rename_i e' r h
    rw [hp] at h
    obtain ⟨rfl, rfl⟩ := List.cons.inj h
    rfl

/-! ### Systems of instances -/

/-- Everything a step of one instance of a system can do when it answers a next system. -/
theorem stepInstance_next {sys sys' : List State} {k : Nat} (h : stepInstance sys k = .next sys') :
    (sys[k]? = none ∧ sys' = sys) ∨ ∃ s t, sys[k]? = some s ∧ step s = .next t ∧ sys' = sys.set k t := by
  unfold stepInstance at h
  split at h
  · rename_i hk
    exact .inl ⟨hk, (Host.Outcome.next.inj h).symm⟩
  · rename_i s hk
    split at h
    · rename_i t ht
      exact .inr ⟨s, t, hk, ht, (Host.Outcome.next.inj h).symm⟩
    · cases h
    · cases h

end Sys2Proof.Machine
end

