-- ==== Sys2Proof/Tests/Slice0.lean ====
section
/-! SUPPORT. The model's own tests. Every expected value is one of spec/95_test_vectors.md or of the rule a comment names. The second
half holds one witness for each statement of Certificates/Slice0/Obligations.lean that has hypotheses (and one per clause, at a
boundary value, where a statement has several). -/

namespace Sys2Proof.Tests

open Sys2Proof Sys2Proof.Machine

/-! ### Well-formed requests (R81, R82, R156): one ill-formed term for each check -/

theorem test_wellFormed_enc : WellFormed 8 (.enc (seq 8 0x0F)) := by decide
theorem test_wellFormed_dec : WellFormed 8 (.dec (seq 13 0x00FF)) := by decide
theorem test_illFormed_enc_short : ¬ WellFormed 8 (.enc (seq 7 0x0F)) := by decide
theorem test_illFormed_enc_long : ¬ WellFormed 8 (.enc (seq 13 0x0F)) := by decide
theorem test_illFormed_dec_short : ¬ WellFormed 8 (.dec (seq 12 0xFF)) := by decide
theorem test_illFormed_dec_long : ¬ WellFormed 8 (.dec (seq 14 0xFF)) := by decide

/-! ### Decoding, words written out from the formats (R81, R82) bit by bit, index 0 first -/

/-- P1 step 1: `ENC 0x0F` is `0b000011110`. -/
theorem test_decode_enc :
    decode 8 [false, true, true, true, true, false, false, false, false]
      = .ok (.enc [true, true, true, true, false, false, false, false]) := by decide

/-- P3 step 4: `DEC 0x0002` is `0x0005`, op 1 and position 1. -/
theorem test_decode_dec :
    decode 8 [true, false, true, false, false, false, false, false, false, false, false, false, false, false]
      = .ok (.dec [false, true, false, false, false, false, false, false, false, false, false, false, false]) := by decide

/-- P4 step 2: `DEC 0x8A` on `M = 4` is the 9-bit word `0x115`. -/
theorem test_decode_dec_m4 : decode 4 (seq 9 0x115) = .ok (.dec (seq 8 0x8A)) := by decide

/-- R85: a word of the wrong width is no request. -/
theorem test_decode_rejects :
    decode 8 [] = .error .empty ∧ decode 8 (seq 8 0) = .error .tooShort ∧ decode 8 (seq 10 0) = .error .tooLong
      ∧ decode 8 (seq 13 1) = .error .tooShort ∧ decode 8 (seq 15 1) = .error .tooLong := by decide

/-- The two rows of spec/opcode_table.json, in whole bytes: `ENC 0x0F` (9 bits in 16), `DEC 0x00DF` (14 bits in 16), and the fixed
bits alone. -/
theorem test_decodeTableWord :
    decodeTableWord 16 0x001E = some (.enc (seq 8 0x0F)) ∧ decodeTableWord 16 0x01BF = some (.dec (seq 13 0x00DF))
      ∧ decodeTableWord 8 0x00 = some (.enc (zeros 8)) ∧ decodeTableWord 8 0x01 = some (.dec (zeros 13)) := by decide

/-! ### Parameters and helpers (spec/95_test_vectors.md section 2) -/

theorem test_admitted :
    [1, 2, 3, 4, 5, 7, 8, 11, 12, 15, 16, 26, 27, 32, 57, 58, 64].map (fun M => decide (Admitted M))
      = [false, false, false, true, false, false, true, true, false, false, true, true, false, true, true, false, true] := by
  decide

theorem test_minimumCheckBits :
    [0, 1, 2, 3, 4, 7, 8, 11, 15, 16, 26, 31, 32].map minimumCheckBits = [0, 1, 2, 2, 3, 3, 4, 4, 4, 5, 5, 5, 6] := by decide

theorem test_extract_m4 :
    extractCheckBits (seq 8 0xAA) 4 = .ok (seq 3 0b001) ∧ extractMessageBits (seq 8 0xAA) 4 = .ok (seq 4 0b1011) := by decide

theorem test_concat_quirk :
    concat (seq 8 0) (seq 3 0b110) = seq 3 0b110 ∧ concat (seq 3 0b110) (seq 8 0) = seq 11 0b110 := by decide

/-- R184: an access out of range is an `IndexFault`: `extractMessageBits` of a word with too many message positions. -/
theorem test_indexFault : extractMessageBits (seq 13 0) 7 = .error .indexFault := by decide

/-! ### The operations, one request each -/

/-- The state after, where there is one. -/
def nextOf : Host.Outcome State Fault Refusal → Option State
  | .next t => some t
  | .fault _ => none
  | .refused _ => none

/-- The reason a run stopped with a fault, where it did. -/
def faultOf : Host.Outcome State Fault Refusal → Option Fault
  | .next _ => none
  | .fault f => some f
  | .refused _ => none

/-- The reason an operation was refused, where it was. -/
def refusalOf : Host.Outcome State Fault Refusal → Option Refusal
  | .next _ => none
  | .fault _ => none
  | .refused r => some r

/-- Section 3.2: `ENC 0xA5` on `M = 8`. -/
theorem test_enc_m8 :
    (nextOf (exec (.enc (seq 8 0xA5)) State.reset)).map State.encRes
      = some { valid := true, len := some 13, data := some (seq 13 0x144E) } := by decide

/-- Section 3.3: `ENC 0x1234` on `M = 16`. -/
theorem test_enc_m16 :
    (nextOf (exec (.enc (seq 16 0x1234)) (State.resetOf 16))).map State.encRes
      = some { valid := true, len := some 22, data := some (seq 22 0x054742) } := by decide

/-- V-D28: all ones on `M = 8`: a correction at 12, `0x007F`. -/
theorem test_dec_ones_m8 :
    (nextOf (exec (.dec (seq 13 0x1FFF)) State.reset)).map State.decRes
      = some { valid := true, status := some .ok, len := some 8, data := some (seq 13 0x007F) } := by decide

/-- V-D62: two flips on `M = 16`: the syndrome is 31, out of range. -/
theorem test_dec_range_m16 :
    (nextOf (exec (.dec (seq 22 0x08B05F)) (State.resetOf 16))).map State.decRes
      = some { valid := true, status := some .syndromeOutOfRange, len := none, data := none } := by decide

/-- V-D29: the call-scoped values of the decoder: `orig`, `prime`, `S`, `W`, and the states passed through. -/
theorem test_decodeCall :
    decodeCall 8 (seq 13 0x02F7) = .ok
      { fsm := [.start, .extractChecks, .recomputeSyndrome, .correctableSingleBit, .globalParityCheck,
          .uncorrectableParityMismatch]
        orig := some (seq 4 0b0111), prime := some (seq 4 0b1101), syndrome := some 10, working := some (seq 13 0x06F7)
        primeG := some false, result := .err .globalParityMismatch } := by decide

/-! ### Steps -/

/-- P1 step 1 as the very next step after reset. -/
theorem test_step_table_enc :
    (nextOf (step (State.reset.withFetchWord 16 0x001E))).map State.encRes
      = some { valid := true, len := some 13, data := some (seq 13 0x00FF) } := by decide

/-- P3 step 5 as the very next step after reset: `DEC 0x0001`. -/
theorem test_step_table_dec :
    (nextOf (step (State.reset.withFetchWord 16 0x0003))).map State.decRes
      = some { valid := true, status := some .globalParityMismatch, len := none, data := none } := by decide

/-- R185: reading `ENC_RES.data` right after reset is a host fault. -/
theorem test_read_no_value :
    faultOf (step { State.reset with program := [.readField .encData] }) = some .hostReadOfNoValue := by decide

/-- R39, R40: `ENC_RES.valid` right after reset reads 0. -/
theorem test_read_valid :
    (nextOf (step { State.reset with program := [.readField .encValid] })).map State.reads
      = some [(.encValid, .bit false)] := by decide

/-- R7: an instance with `M = 5` is refused. -/
theorem test_not_admitted : refusalOf (step (State.resetOf 5)) = some .instanceNotAdmitted ∧ State.build 5 = none := by decide

/-! ### Witnesses -/

/-- The default instance with results in both latches: those of `ENC 0x0F` and of `DEC 0x00DF` (P1). -/
def ran : State :=
  { State.reset with
    encRes := { valid := true, len := some 13, data := some (seq 13 0x00FF) }
    decRes := { valid := true, status := some .ok, len := some 8, data := some (seq 13 0x000F) } }

/-- The default instance after a decode error (P2 step 1). -/
def failed : State :=
  { State.reset with decRes := { valid := true, status := some .globalParityMismatch, len := none, data := none } }

theorem witness_DecodeEncodeAgree :
    WellFormed 4 (.enc (seq 4 0b1011)) ∧ decode 8 (seq 14 0x01FF) = .ok (.dec (seq 13 0x00FF)) := by decide

theorem witness_RequestWordFields_short : ((seq 7 0).length < 8 ∧ (seq 12 0).length < codeLength 8) := by decide
theorem witness_RequestWordFields_long : (8 < (seq 9 0).length ∧ codeLength 8 < (seq 14 0).length) := by decide
theorem witness_RequestWordFields_exact : ((seq 8 0).length = 8 ∧ (seq 13 0).length = codeLength 8) := by decide

theorem witness_StepRunsDecodedRequest :
    Admitted ran.messageLength ∧ ({ ran with program := [.request (seq 9 0x01E)] } : State).program = .request (seq 9 0x01E) :: []
      ∧ decode ran.messageLength (seq 9 0x01E) = .ok (.enc (seq 8 0x0F)) := by decide

theorem witness_IdleStepChangesNothing : Admitted ran.messageLength ∧ ran.program = [] := by decide

theorem witness_PortsPresentRequests :
    let p : PortsIn := { reqValid := true, reqOp := true, reqMsg := seq 8 0x0F, reqCw := seq 13 0x00FF }
    p.reqMsg.length = ran.messageLength ∧ p.reqCw.length = codeLength ran.messageLength := by decide

theorem witness_AdmittedInstances_admitted : Admitted 4 ∧ (3 ≤ 3 ∧ 2 ^ (3 - 1) ≤ 4 ∧ 4 + 3 + 1 ≤ 2 ^ 3) := by decide
theorem witness_AdmittedInstances_refused : 1 ≤ 5 ∧ ¬ Admitted 5 := by decide

theorem witness_TextbookCheckCountAgrees : Admitted 11 ∧ 11 + 4 ≤ 2 ^ 4 - 1 := by decide

theorem witness_SlotEnumeratesMessagePositions : Admitted 26 ∧ 1 ≤ 3 ∧ 3 - 1 - Nat.log2 3 = 0 + 1 := by decide

theorem witness_ParityGroups : 3 ∈ group 13 (2 ^ 0) ∧ 3 < 13 ∧ role 3 = .message := by decide

theorem witness_ByteHelpers : 13 ≤ 8 * 2 := by decide

theorem witness_ConcatDropsZeroPrefix_zero : isZero (seq 8 0) = true := by decide
theorem witness_ConcatDropsZeroPrefix_nonzero : isZero (seq 2 0b01) = false ∧ 0 < (seq 2 0b01).length ∧ 0 < (seq 3 0b110).length := by
  decide

theorem witness_MinimumCheckBitsLeast : 15 ≤ 2 ^ 4 - 1 ∧ 1 ≤ 1 := by decide

theorem witness_ExtractCheckBitsReads : Admitted 8 ∧ (seq 13 0x00FF).length = codeLength 8 ∧ 0 < minimumCheckBits 8 := by decide
theorem witness_ExtractMessageBitsReads : Admitted 8 ∧ (seq 13 0x00FF).length = codeLength 8 := by decide

theorem witness_EncWritesCodeword :
    Admitted ran.messageLength ∧ (seq 8 0x80).length = ran.messageLength ∧ isZero (seq 8 0x80) = false := by decide
theorem witness_EncZeroFastPath :
    Admitted ran.messageLength ∧ (seq 8 0).length = ran.messageLength ∧ isZero (seq 8 0) = true := by decide

theorem witness_CheckOrderUnobservable :
    Admitted 8 ∧ (seq 13 0x1FFF).length = codeLength 8 ∧ [8, 4, 2, 1].Perm (ascendingChecks (checkCount 8)) := by decide

theorem witness_CodewordsByIndexXor :
    Admitted 8 ∧ (seq 13 0x00FF).length = codeLength 8 ∧ isCodeword 8 (seq 13 0x00FF) = true
      ∧ Admitted ran.messageLength ∧ (seq 8 0x0F).length = ran.messageLength := by decide

theorem witness_EncLinearInjective :
    Admitted ran.messageLength ∧ (seq 8 0x0F).length = ran.messageLength ∧ (seq 8 0x81).length = ran.messageLength := by decide

theorem witness_CodewordWeights :
    Admitted 8 ∧ isCodeword 8 (seq 13 0x000F) = true ∧ isZero (seq 13 0x000F) = false ∧ 7 < 8 := by decide

theorem witness_DecZeroFastPath :
    Admitted ran.messageLength ∧ (seq 13 0).length = codeLength ran.messageLength ∧ isZero (seq 13 0) = true := by decide
theorem witness_DecWritesOutcome :
    Admitted ran.messageLength ∧ (seq 13 0x1000).length = codeLength ran.messageLength ∧ isZero (seq 13 0x1000) = false := by decide
/-- The clauses of `DecWritesOutcome` at their boundary: `S = 13 = N` (V-D30), `S = 12 = N - 1` (V-D27), `S = 0` with even and with
odd weight (V-D21, V-D0). -/
theorem witness_DecWritesOutcome_clauses :
    indexXor (seq 13 0x01DF) = 13 ∧ indexXor (seq 13 0x1000) = 12 ∧ popcount (flipAt (seq 13 0x1000) 12) % 2 = 0
      ∧ indexXor (seq 13 0x00FF) = 0 ∧ popcount (seq 13 0x00FF) % 2 = 0
      ∧ indexXor (seq 13 0x00FE) = 0 ∧ popcount (seq 13 0x00FE) % 2 = 1 := by decide

theorem witness_SyndromeFromCheckBits :
    Admitted 8 ∧ (seq 13 0x00DF).length = codeLength 8 ∧ isZero (seq 13 0x00DF) = false ∧ 0 < checkCount 8 := by decide
theorem witness_SyndromeIsIndexXor :
    Admitted 8 ∧ (seq 13 0x00DF).length = codeLength 8 ∧ isZero (seq 13 0x00DF) = false
      ∧ isCodeword 8 (seq 13 0x00FF) = true ∧ (seq 13 0x0020).length = codeLength 8 := by decide
theorem witness_GlobalParityCheck : 0 < (seq 13 0x00FE).length := by decide
theorem witness_DecoderFollowsStateMachine :
    Admitted 8 ∧ (seq 13 0).length = codeLength 8 ∧ (seq 13 0x01DF).length = codeLength 8 := by decide

theorem witness_RoundTrip : Admitted ran.messageLength ∧ (seq 8 0xA5).length = ran.messageLength := by decide
theorem witness_SingleFlips :
    Admitted ran.messageLength ∧ (seq 8 0xA5).length = ran.messageLength ∧ 0 < codeLength ran.messageLength
      ∧ 1 < codeLength ran.messageLength ∧ 12 < codeLength ran.messageLength := by decide
theorem witness_DoubleFlipsDetected :
    Admitted ran.messageLength ∧ (seq 8 0xA5).length = ran.messageLength ∧ 0 < 1 ∧ 5 < 8 ∧ 8 < codeLength ran.messageLength
      ∧ codeLength ran.messageLength ≤ 5 ^^^ 8 := by decide
theorem witness_TripleFlipExample : ran.messageLength = 8 := by decide
theorem witness_SourceScenario : failed.messageLength = 8 := by decide
theorem witness_CorrectionInvisible :
    Admitted ran.messageLength ∧ isCodeword ran.messageLength (seq 13 0x00FF) = true ∧ isZero (seq 13 0x00FF) = false
      ∧ 1 ≤ 12 ∧ 12 < codeLength ran.messageLength := by decide
/-- The exception: the all-zero codeword. -/
theorem witness_CorrectionInvisible_zero :
    Admitted ran.messageLength ∧ isCodeword ran.messageLength (zeros 13) = true ∧ isZero (zeros 13) = true
      ∧ 1 ≤ 1 ∧ 1 < codeLength ran.messageLength := by decide

theorem witness_ErrorKindCauses :
    Admitted ran.messageLength ∧ (seq 13 0x01DF).length = codeLength ran.messageLength ∧ indexXor (seq 13 0x01DF) = 13 := by decide
theorem witness_ErrorKindCauses_full :
    Admitted 4 ∧ (seq 8 0x88).length = codeLength 4 ∧ codeLength 4 = 2 ^ checkCount 4 := by decide

theorem witness_EncFrame : (nextOf (exec (.enc (seq 8 0x0F)) failed)).isSome = true := by decide
theorem witness_DecFrame : (nextOf (exec (.dec (seq 13 0x02F7)) ran)).isSome = true := by decide
theorem witness_ResultsIgnoreLatches :
    ran.messageLength = failed.messageLength ∧ (nextOf (exec (.dec (seq 13 0x00FF)) ran)).isSome = true := by decide
theorem witness_LaterRequestOverwrites :
    sameUnit (.dec (seq 13 0x02F7)) (.dec (seq 13 0x00FF)) = true
      ∧ (nextOf (exec (.dec (seq 13 0x02F7)) State.reset)).isSome = true := by decide
theorem witness_NonAdmittedRefused : ¬ Admitted (State.resetOf 12).messageLength := by decide
theorem witness_WrongWidthRefused :
    Admitted ran.messageLength ∧ ¬ WellFormed ran.messageLength (.enc (seq 9 0))
      ∧ decode ran.messageLength (seq 10 0) = .error .tooLong := by decide

theorem witness_ReadReturnsCurrentValue :
    Admitted ran.messageLength ∧ ({ ran with program := [.readField .encLen] } : State).program = .readField .encLen :: [] := by decide
/-- After P1 every field holds the value P1 reads. -/
theorem witness_ReadReturnsCurrentValue_fields :
    ran.encRes.len = some 13 ∧ ran.encRes.data = some (seq 13 0x00FF) ∧ ran.decRes.status = some .ok
      ∧ ran.decRes.len = some 8 ∧ ran.decRes.data = some (seq 13 0x000F) := by decide
theorem witness_ReadOfNoValueFaults :
    stateOk { failed with program := [.readField .decLen] } = true ∧ failed.decRes.valid = true
      ∧ failed.decRes.status ≠ some .ok := by decide
/-- Right after reset no latch is valid, the premise of the other fields' cases. -/
theorem witness_ReadOfNoValueFaults_reset :
    [Field.encLen, .encData, .decStatus, .decLen, .decData].all
        (fun f => stateOk { State.reset with program := [.readField f] }) = true
      ∧ State.reset.encRes.valid = false ∧ State.reset.decRes.valid = false := by decide
/-- Each field but `valid` faults right after reset, `len` and `data` of `DEC_RES` after an error too, and a `valid` bit never. -/
theorem test_readOfNoValue :
    [Field.encLen, .encData, .decStatus, .decLen, .decData].all
        (fun f => step { State.reset with program := [.readField f] } matches .fault .hostReadOfNoValue) = true
      ∧ [Field.decLen, .decData].all
        (fun f => step { failed with program := [.readField f] } matches .fault .hostReadOfNoValue) = true
      ∧ [Field.encValid, .decValid].all
        (fun f => step { State.reset with program := [.readField f] } matches .next _) = true := by decide
theorem witness_LatchReads_none :
    Admitted failed.messageLength ∧ failed.decRes.len = none ∧ State.reset.encRes.len = none := by decide
theorem witness_LatchReads_all :
    Admitted ran.messageLength ∧ ran.encRes.len = some 13 ∧ ran.encRes.data = some (seq 13 0x00FF)
      ∧ ran.decRes.status = some .ok ∧ ran.decRes.len = some 8 ∧ ran.decRes.data = some (seq 13 0x000F) := by decide
theorem witness_ResetClearsLatches :
    Admitted ran.messageLength
      ∧ ({ ran with program := [.reset (some (seq 9 0x01E))] } : State).program = .reset (some (seq 9 0x01E)) :: [] := by decide

theorem witness_ParametersConstant : (nextOf (step { ran with program := [.reset none] })).isSome = true := by decide
theorem witness_LatchesWrittenByOwnUnit :
    (nextOf (step { ran with program := [.request (seq 14 0x01FF)] })).isSome = true
      ∧ isEncRequest (.request (seq 14 0x01FF)) = false ∧ isReset (.request (seq 14 0x01FF)) = false := by decide
theorem witness_ResetStateOk : Admitted 4 := by decide
theorem witness_StepKeepsStateOk :
    stateOk { ran with program := [.request (seq 9 0x01E)] } = true
      ∧ (nextOf (step { ran with program := [.request (seq 9 0x01E)] })).isSome = true := by decide
theorem witness_LatchesHoldLastResults :
    Admitted ran.messageLength ∧ (∀ i ∈ [Instr.enc (seq 8 1), .dec (seq 13 2)], WellFormed ran.messageLength i)
      ∧ lastEnc [Instr.enc (seq 8 1), .dec (seq 13 2)] = some (seq 8 1)
      ∧ lastDec [Instr.enc (seq 8 1), .dec (seq 13 2)] = some (seq 13 2) := by decide

/-- The systems after a run, where there is one. -/
def systemOf : Host.Outcome (List State) Fault Refusal → Option (List State)
  | .next t => some t
  | .fault _ => none
  | .refused _ => none

theorem witness_InterleavingsCommute :
    [0, 1].Perm [1, 0]
      ∧ (systemOf (runInterleaving [0, 1]
          [{ ran with program := [.reset none] }, { State.resetOf 4 with program := [.request (seq 5 0x16)] }])).isSome = true := by
  decide
theorem witness_RunsEnd :
    let s : State := { ran with program := [.request (seq 9 0x01E), .readField .encValid, .reset none] }
    Admitted s.messageLength ∧ ∀ e ∈ s.program, completes s.messageLength e = true := by decide

end Sys2Proof.Tests
end

section
/-! PROOFS. The position map by arithmetic: which positions are powers of two, the number of check bits as a number of binary digits
(spec/40_helpers.md R100, R104), and how the positions below a bound split into the three roles (spec/20_memory.md R62). -/

namespace Sys2Proof.Machine

/-! ### Powers of two (R100) -/

/-- The digits that `oneDigits` counts are all of them: digit `x` and every higher digit of `x` are 0. -/
theorem mem_oneDigits_iff {x i : Nat} : i ∈ (List.range x).filter x.testBit ↔ x.testBit i = true := by
  rw [List.mem_filter, List.mem_range, and_iff_right_iff_imp]
  exact fun hi => Nat.lt_two_pow_self.trans_le (Nat.ge_two_pow_of_testBit hi)

theorem oneDigits_two_pow (t : Nat) : oneDigits (2 ^ t) = 1 := by
  have hcount : (List.range (2 ^ t)).countP (2 ^ t).testBit = (List.range (2 ^ t)).count t :=
    List.countP_congr fun i _ => by rw [Nat.testBit_two_pow, decide_eq_true_iff, beq_iff_eq, eq_comm]
  rw [oneDigits, hcount]
  exact List.count_eq_one_of_mem List.nodup_range (List.mem_range.mpr Nat.lt_two_pow_self)

theorem eq_two_pow_of_oneDigits {x : Nat} (h : oneDigits x = 1) : ∃ t, x = 2 ^ t := by
  rw [oneDigits, List.countP_eq_length_filter, List.length_eq_one_iff] at h
  obtain ⟨t, ht⟩ := h
  refine ⟨t, Nat.eq_of_testBit_eq fun i => Bool.eq_iff_iff.mpr ?_⟩
  rw [← mem_oneDigits_iff, ht, List.mem_singleton, Nat.testBit_two_pow, decide_eq_true_iff, eq_comm]

theorem isPowerOfTwo_iff {x : Nat} : isPowerOfTwo x = true ↔ ∃ t, x = 2 ^ t := by
  simp only [isPowerOfTwo, Bool.and_eq_true, bne_iff_ne, beq_iff_eq]
  constructor
  · rintro ⟨-, h⟩
    exact eq_two_pow_of_oneDigits h
  · rintro ⟨t, rfl⟩
    exact ⟨(Nat.two_pow_pos t).ne', oneDigits_two_pow t⟩

/-! ### Roles of positions (R62) -/

theorem role_eq_check_iff {p : Nat} : role p = .check ↔ ∃ t, p = 2 ^ t := by
  rw [← isPowerOfTwo_iff]
  by_cases h0 : p = 0
  · subst h0; decide
  · by_cases hp : isPowerOfTwo p <;> simp [role, h0, hp]

/-- Below a bound that exactly the first `k` powers of two stay under, those powers are the check positions. -/
theorem checkPositions_eq {n k : Nat} (h : ∀ t, 2 ^ t < n ↔ t < k) :
    checkPositions n = (List.range k).map (2 ^ ·) := by
  have hl : (checkPositions n).Pairwise (· < ·) := List.pairwise_lt_range.filter _
  have hr : ((List.range k).map (2 ^ ·)).Pairwise (· < ·) :=
    List.pairwise_lt_range.map _ fun _ _ hab => Nat.pow_lt_pow_right one_lt_two hab
  refine hl.sortedLT.eq_of_mem_iff hr.sortedLT fun p => ?_
  simp only [checkPositions, List.mem_filter, List.mem_range, List.mem_map, beq_iff_eq, role_eq_check_iff]
  constructor
  · rintro ⟨hp, t, rfl⟩
    exact ⟨t, (h t).mp hp, rfl⟩
  · rintro ⟨t, ht, rfl⟩
    exact ⟨(h t).mpr ht, t, rfl⟩

theorem length_checkPositions_succ (n : Nat) :
    (checkPositions (n + 1)).length = (checkPositions n).length + if role n = .check then 1 else 0 := by
  rw [checkPositions, filter_range_succ]
  by_cases h : role n = .check <;> simp [checkPositions, h]

/-- Position 0 is the global parity bit; every other position below the bound is a check or a message position. -/
theorem length_checkPositions_add_messagePositions (n : Nat) :
    (checkPositions (n + 1)).length + (messagePositions (n + 1)).length = n := by
  induction n with
  | zero => rfl
  | succ n ih =>
    rw [length_checkPositions_succ, length_messagePositions_succ]
    have hrole : role (n + 1) ≠ .globalParity := by simp [role]; split <;> nofun
    cases h : role (n + 1) with
    | globalParity => exact absurd h hrole
    | check => simp; omega
    | message => simp; omega

/-! ### The number of check bits (R104) -/

/-- The as-built `K` is the number of binary digits, so `Nat.size_le` and `Nat.lt_size` say when it is reached. -/
theorem minimumCheckBits_eq_size (n : Nat) : minimumCheckBits n = Nat.size n := by
  have hfits : ∀ k, n ≤ 2 ^ k - 1 ↔ Nat.size n ≤ k := fun k => by
    rw [Nat.size_le]; have := Nat.two_pow_pos k; omega
  have hfind : (List.range (n + 1)).find? (fun k => decide (n ≤ 2 ^ k - 1)) = some (Nat.size n) := by
    rw [List.find?_range_eq_some]
    have hsize : Nat.size n ≤ n := Nat.size_le.mpr Nat.lt_two_pow_self
    refine ⟨by simp [hfits], List.mem_range.mpr (by omega), fun j hj => ?_⟩
    simpa [hfits] using hj
  rw [minimumCheckBits, hfind, Option.getD_some]

theorem checkCount_le_iff {M k : Nat} : checkCount M ≤ k ↔ M < 2 ^ k := by
  rw [checkCount, minimumCheckBits_eq_size, Nat.size_le]

theorem lt_checkCount_iff {M k : Nat} : k < checkCount M ↔ 2 ^ k ≤ M := by
  rw [checkCount, minimumCheckBits_eq_size, Nat.lt_size]

theorem lt_two_pow_checkCount (M : Nat) : M < 2 ^ checkCount M := checkCount_le_iff.mp le_rfl

end Sys2Proof.Machine
end

section
/-! PROOFS. Admitted instances (spec/00_scope.md R7, R8): the closed form of `Admitted`, the position counts on admitted and on other
`M`, and the refusal of every other `M`. -/

namespace Sys2Proof.Machine

/-! ### The closed form of `Admitted` -/

/-- Fewer than three check bits leave no room for a message. -/
theorem three_le_checkCount {M : Nat} (h : Admitted M) : 3 ≤ checkCount M := by
  obtain ⟨hM, hfit⟩ := h
  by_contra hlt
  have hcases : checkCount M = 0 ∨ checkCount M = 1 ∨ checkCount M = 2 := by omega
  rcases hcases with hK | hK | hK
  · rw [hK] at hfit; omega
  · rw [hK] at hfit; omega
  · rw [hK] at hfit
    have : 2 ^ 1 ≤ M := lt_checkCount_iff.mp (by omega)
    omega

theorem admitted_iff_exists (M : Nat) : Admitted M ↔ ∃ K, 3 ≤ K ∧ 2 ^ (K - 1) ≤ M ∧ M + K + 1 ≤ 2 ^ K := by
  constructor
  · intro h
    have hK := three_le_checkCount h
    refine ⟨checkCount M, hK, lt_checkCount_iff.mp (by omega), ?_⟩
    have := h.2
    omega
  · rintro ⟨K, -, hlow, hfit⟩
    have hle : checkCount M ≤ K := checkCount_le_iff.mpr (by omega)
    have hlt : K - 1 < checkCount M := lt_checkCount_iff.mpr hlow
    obtain rfl : K = checkCount M := by omega
    exact ⟨(Nat.two_pow_pos _).trans_le hlow, by omega⟩

/-! ### What the positions below `N` hold -/

theorem length_checkPositions_add_messagePositions_codeLength (M : Nat) :
    (checkPositions (codeLength M)).length + (messagePositions (codeLength M)).length = checkCount M + M :=
  length_checkPositions_add_messagePositions (checkCount M + M)

theorem checkPositions_of_admitted {M : Nat} (h : Admitted M) :
    checkPositions (codeLength M) = (List.range (checkCount M)).map (2 ^ ·) := by
  have hM : M < codeLength M := by unfold codeLength; omega
  refine checkPositions_eq fun t => ⟨fun ht => ?_, fun ht => ?_⟩
  · exact (Nat.pow_lt_pow_iff_right one_lt_two).mp (ht.trans_le h.2)
  · exact (lt_checkCount_iff.mp ht).trans_lt hM

/-- R7: on an `M` that is not admitted, position `2^K` stands below `N` and takes the place of a message position. -/
theorem checkPositions_of_not_admitted {M : Nat} (hM : 1 ≤ M) (h : ¬ Admitted M) :
    checkPositions (codeLength M) = (List.range (checkCount M + 1)).map (2 ^ ·) := by
  have hover : 2 ^ checkCount M < codeLength M := Nat.lt_of_not_le fun hfit => h ⟨hM, hfit⟩
  have hnext : codeLength M ≤ 2 ^ (checkCount M + 1) := by
    have h1 := lt_two_pow_checkCount M
    have h2 : checkCount M < 2 ^ checkCount M := Nat.lt_two_pow_self
    rw [codeLength, pow_succ]
    omega
  refine checkPositions_eq fun t => ⟨fun ht => ?_, fun ht => ?_⟩
  · exact (Nat.pow_lt_pow_iff_right one_lt_two).mp (ht.trans_le hnext)
  · exact (Nat.pow_le_pow_right two_pos (Nat.le_of_lt_succ ht)).trans_lt hover

theorem length_messagePositions_of_admitted {M : Nat} (h : Admitted M) :
    (messagePositions (codeLength M)).length = M := by
  have hsum := length_checkPositions_add_messagePositions_codeLength M
  rw [checkPositions_of_admitted h, List.length_map, List.length_range] at hsum
  omega

theorem length_checkPositions_of_not_admitted {M : Nat} (hM : 1 ≤ M) (h : ¬ Admitted M) :
    (checkPositions (codeLength M)).length = checkCount M + 1 := by
  rw [checkPositions_of_not_admitted hM h, List.length_map, List.length_range]

theorem length_messagePositions_of_not_admitted {M : Nat} (hM : 1 ≤ M) (h : ¬ Admitted M) :
    (messagePositions (codeLength M)).length = M - 1 := by
  have hsum := length_checkPositions_add_messagePositions_codeLength M
  rw [length_checkPositions_of_not_admitted hM h] at hsum
  omega

/-- Settles O7: the closed form of `Admitted`, the position counts in both cases, and `State.build`. -/
theorem admittedInstances : Obligations.AdmittedInstances :=
  ⟨admitted_iff_exists,
    fun _ h => ⟨checkPositions_of_admitted h, length_messagePositions_of_admitted h⟩,
    fun _ hM h => ⟨length_checkPositions_of_not_admitted hM h, length_messagePositions_of_not_admitted hM h⟩,
    fun _ => rfl,
    by decide⟩

/-- Settles O8: admission is the textbook bound for the as-built `K`, and the textbook bound implies the as-built one for every
other `k`. -/
theorem textbookCheckCountAgrees : Obligations.TextbookCheckCountAgrees := by
  intro M h
  refine ⟨?_, fun k hk => checkCount_le_iff.mpr ?_⟩
  · have := h.2
    omega
  · have := Nat.two_pow_pos k
    omega

/-! ### Refusal where `M` is not admitted (R7, U1) -/

theorem portOperand_of_not_admitted {s : State} (h : ¬ Admitted s.messageLength) (width : Nat) (x : BitSeq) :
    portOperand s width x = .error .instanceNotAdmitted := if_pos h

theorem execEnc_of_messageOperand_error {msg : BitSeq} {s : State} {r : Refusal} (h : messageOperand s msg = .error r) :
    execEnc msg s = .refused r := by
  simp [execEnc, h]

theorem execDec_of_codewordOperand_error {cw : BitSeq} {s : State} {r : Refusal} (h : codewordOperand s cw = .error r) :
    execDec cw s = .refused r := by
  simp [execDec, h]

theorem exec_of_not_admitted {s : State} (h : ¬ Admitted s.messageLength) (i : Instr) :
    exec i s = .refused .instanceNotAdmitted := by
  cases i with
  | enc msg => exact execEnc_of_messageOperand_error (portOperand_of_not_admitted h _ msg)
  | dec cw => exact execDec_of_codewordOperand_error (portOperand_of_not_admitted h _ cw)

/-- Settles O43: `step` tests admission first, and each operation tests it when it takes its operand from the port. -/
theorem nonAdmittedRefused : Obligations.NonAdmittedRefused :=
  fun _ h => ⟨if_neg h, exec_of_not_admitted h⟩

end Sys2Proof.Machine
end

section
/-! PROOFS. Requests (spec/30_encoding.md R80 to R86): which words decode to a request, the request at the front of a table word, and
what a step does with the host's next request (spec/10_state.md R36, R42, R43). -/

namespace Sys2Proof.Machine

/-! ### Words that decode -/

theorem takeOperand_eq_ok_iff {n : Nat} {s x rest : BitSeq} :
    takeOperand n s = .ok (x, rest) ↔ x.length = n ∧ s = x ++ rest := by
  unfold takeOperand
  split
  · rename_i hn
    constructor
    · intro h
      obtain ⟨rfl, rfl⟩ := Prod.mk.inj (Except.ok.inj h)
      exact ⟨List.length_take_of_le hn, (List.take_append_drop n s).symm⟩
    · rintro ⟨rfl, rfl⟩
      rw [List.take_left, List.drop_left]
  · rename_i hn
    refine ⟨nofun, ?_⟩
    rintro ⟨rfl, rfl⟩
    exact absurd (by simp) hn

/-- R86: the request at the front of a sequence of bits is the one whose word the sequence begins with. -/
theorem decodePrefix_eq_ok_iff {M : Nat} {w rest : BitSeq} {i : Instr} :
    decodePrefix M w = .ok (i, rest) ↔ WellFormed M i ∧ w = encode i ++ rest := by
  match w with
  | [] => cases i <;> simp [decodePrefix, encode]
  | false :: s =>
    have hmsg := @takeOperand_eq_ok_iff M s
    cases i with
    | enc msg =>
      rw [encode, List.cons_append, List.cons_inj_right, WellFormed, Instr.operand, operandWidth, ← hmsg, decodePrefix]
      split <;> rename_i hs <;> simp [hs]
    | dec cw =>
      rw [decodePrefix]
      split <;> simp [encode]
  | true :: s =>
    have hcw := @takeOperand_eq_ok_iff (codeLength M) s
    cases i with
    | enc msg =>
      rw [decodePrefix]
      split <;> simp [encode]
    | dec cw =>
      rw [encode, List.cons_append, List.cons_inj_right, WellFormed, Instr.operand, operandWidth, ← hcw, decodePrefix]
      split <;> rename_i hs <;> simp [hs]

theorem decode_eq_ok_iff {M : Nat} {w : BitSeq} {i : Instr} :
    decode M w = .ok i ↔ WellFormed M i ∧ w = encode i := by
  have hwhole : decode M w = .ok i ↔ decodePrefix M w = .ok (i, []) := by
    unfold decode
    split <;> rename_i h <;> simp [h]
  rw [hwhole, decodePrefix_eq_ok_iff, List.append_nil]

theorem decode_encode {M : Nat} {i : Instr} (h : WellFormed M i) : decode M (encode i) = .ok i :=
  decode_eq_ok_iff.mpr ⟨h, rfl⟩

/-! ### Table words (log entry 7) -/

theorem le_codeLength (M : Nat) : M ≤ codeLength M := by unfold codeLength; omega

/-- A sequence with room for the longest request begins with one. -/
theorem exists_decodePrefix_ok {M : Nat} {w : BitSeq} (h : codeLength M < w.length) :
    ∃ i rest, decodePrefix M w = .ok (i, rest) := by
  match w with
  | [] => simp at h
  | b :: s =>
    have hs : codeLength M ≤ s.length := Nat.le_of_lt_succ h
    cases b with
    | false =>
      refine ⟨.enc (s.take M), s.drop M, decodePrefix_eq_ok_iff.mpr ⟨?_, ?_⟩⟩
      · exact List.length_take_of_le ((le_codeLength M).trans hs)
      · simp [encode]
    | true =>
      refine ⟨.dec (s.take (codeLength M)), s.drop (codeLength M), decodePrefix_eq_ok_iff.mpr ⟨?_, ?_⟩⟩
      · exact List.length_take_of_le hs
      · simp [encode]

theorem length_encode {M : Nat} {i : Instr} (h : WellFormed M i) : (encode i).length = operandWidth M i + 1 := by
  cases i with
  | enc msg => exact ((Laws.RequestWidth.enc msg).2 M).mpr h
  | dec cw => exact ((Laws.RequestWidth.dec cw).2 M).mpr h

theorem exists_decode_tableRequestWord (M nbits w : Nat) : ∃ i, decode M (tableRequestWord M nbits w) = .ok i := by
  obtain ⟨i, rest, hfront⟩ := exists_decodePrefix_ok (M := M) (w := tableBits M nbits w) (by simp [tableBits])
  obtain ⟨hwf, hbits⟩ := decodePrefix_eq_ok_iff.mp hfront
  have hword : tableRequestWord M nbits w = encode i := by
    simp only [tableRequestWord, hfront]
    rw [hbits, ← length_encode hwf, List.take_left]
  exact ⟨i, hword ▸ decode_encode hwf⟩

/-! ### Requests and idle steps -/

theorem issueRequest_of_decode {s : State} {w : BitSeq} {i : Instr} (h : decode s.messageLength w = .ok i) :
    issueRequest w s = exec i s := by
  simp [issueRequest, h]

theorem step_request {s : State} {w : BitSeq} {rest : List HostEvent} {i : Instr} (ha : Admitted s.messageLength)
    (hp : s.program = .request w :: rest) (hd : decode s.messageLength w = .ok i) :
    step s = exec i { s with program := rest } :=
  (step_cons ha hp).trans (issueRequest_of_decode hd)

theorem step_nil {s : State} (ha : Admitted s.messageLength) (hp : s.program = []) : step s = .next s := by
  simp [step, ha, hp]

/-- Settles O4: a request event is taken off the program and run; a table word holds a request at its front, whose word
`withFetchWord` makes the next event. -/
theorem stepRunsDecodedRequest : Obligations.StepRunsDecodedRequest := by
  refine ⟨fun s w rest i ha hp hd => step_request ha hp hd, fun s nbits w ha => ?_⟩
  obtain ⟨i, hi⟩ := exists_decode_tableRequestWord s.messageLength nbits w
  exact ⟨i, hi, step_request (s := s.withFetchWord nbits w) ha rfl hi⟩

/-- Settles O5: with an empty program there is no event to run. -/
theorem idleStepChangesNothing : Obligations.IdleStepChangesNothing :=
  fun _ ha hp => step_nil ha hp

/-! ### The signal sketch (R43) -/

/-- R43: the wires present the word of the request that `req_op` selects. -/
theorem portsWord_eq_encode (p : PortsIn) :
    portsWord p = encode (if p.reqOp then .dec p.reqCw else .enc p.reqMsg) := by
  cases h : p.reqOp <;> simp [portsWord, encode, h]

/-- Settles O6: the word on the wires decodes to the request that `req_op` selects. -/
theorem portsPresentRequests : Obligations.PortsPresentRequests := by
  intro p s hmsg hcw
  have hissue : issueRequest (portsWord p) s = if p.reqOp then exec (.dec p.reqCw) s else exec (.enc p.reqMsg) s := by
    rw [portsWord_eq_encode]
    cases p.reqOp with
    | true => exact issueRequest_of_decode (decode_encode (i := .dec p.reqCw) hcw)
    | false => exact issueRequest_of_decode (decode_encode (i := .enc p.reqMsg) hmsg)
  rw [portsStep, hissue]

end Sys2Proof.Machine
end

section
/-! PROOFS. What an operation, a read, a reset and a step leave unchanged (spec/10_state.md R31, R32, R37, R41), and what a decode
leaves in `DEC_RES` (R34). -/

namespace Sys2Proof.Machine

/-! ### The frames of the two operations (R32, R192) -/

/-- Settles O39: `ENC` writes by `writeEncRes`, which changes `ENC_RES` alone. -/
theorem encFrame : Obligations.EncFrame := by
  intro msg s t h
  obtain ⟨-, -, r, -, rfl⟩ := execEnc_next h
  simp

/-- Settles O40: `DEC` writes by `writeDecRes`, which changes `DEC_RES` alone, on a success and on an error. -/
theorem decFrame : Obligations.DecFrame := by
  intro cw s t h
  obtain ⟨-, -, res, -, rfl⟩ := execDec_next h
  simp

/-- What a `DEC` writes depends on its result and on `M` alone. -/
theorem writeDecRes_decRes_congr {s u : State} (h : s.messageLength = u.messageLength) (res : DecodeResult) :
    (writeDecRes u res).decRes = (writeDecRes s res).decRes := by
  cases res with
  | ok r => simp [h]
  | err e => simp

/-- Settles O41: an operation takes `M` and its operand from the state and nothing else. -/
theorem resultsIgnoreLatches : Obligations.ResultsIgnoreLatches := by
  intro i s u t hM h
  cases i with
  | enc msg =>
    obtain ⟨ha, hl, r, hr, rfl⟩ := execEnc_next h
    refine ⟨writeEncRes u r, execEnc_of_encodeMessage (hM ▸ ha) (hM ▸ hl) (hM ▸ hr), ?_⟩
    simp [hM]
  | dec cw =>
    obtain ⟨ha, hl, res, hr, rfl⟩ := execDec_next h
    exact ⟨writeDecRes u res, execDec_of_decodeCodeword (hM ▸ ha) (hM ▸ hl) (hM ▸ hr), writeDecRes_decRes_congr hM res⟩

/-! ### Parameters are constants (R31) -/

theorem exec_messageLength {i : Instr} {s t : State} (h : exec i s = .next t) : t.messageLength = s.messageLength := by
  cases i with
  | enc msg => exact (encFrame msg s t h).1
  | dec cw => exact (decFrame cw s t h).1

theorem runEvent_messageLength {e : HostEvent} {s t : State} (h : runEvent e s = .next t) :
    t.messageLength = s.messageLength := by
  obtain ⟨w, i, -, -, hexec⟩ | ⟨vs, rfl, -⟩ | ⟨cut, -, rfl⟩ := runEvent_next h
  · exact exec_messageLength hexec
  · rfl
  · rfl

theorem step_messageLength {s t : State} (h : step s = .next t) : t.messageLength = s.messageLength := by
  obtain ⟨-, ⟨-, rfl⟩ | ⟨e, rest, -, hrun⟩⟩ := step_next h
  · rfl
  · exact (runEvent_messageLength hrun :)

/-- Settles O50: `K` and `N` are functions of `M`, which no event writes. -/
theorem parametersConstant : Obligations.ParametersConstant := by
  intro s t h
  rw [step_messageLength h]
  exact ⟨rfl, rfl, rfl⟩

/-! ### Who writes a latch (R32, R41) -/

/-- R81: an event whose word decodes to an `ENC` is an `ENC` request. -/
theorem isEncRequest_of_decode {M : Nat} {w msg : BitSeq} (h : decode M w = .ok (.enc msg)) :
    isEncRequest (.request w) = true := by
  obtain ⟨-, rfl⟩ := decode_eq_ok_iff.mp h
  rfl

/-- R82: an event whose word decodes to a `DEC` is a `DEC` request. -/
theorem isDecRequest_of_decode {M : Nat} {w cw : BitSeq} (h : decode M w = .ok (.dec cw)) :
    isDecRequest (.request w) = true := by
  obtain ⟨-, rfl⟩ := decode_eq_ok_iff.mp h
  rfl

theorem runEvent_encRes {e : HostEvent} {s t : State} (h : runEvent e s = .next t)
    (he : isEncRequest e = false ∧ isReset e = false) : t.encRes = s.encRes := by
  obtain ⟨hreq, hreset⟩ := he
  obtain ⟨w, i, rfl, hd, hexec⟩ | ⟨vs, rfl, -⟩ | ⟨cut, rfl, -⟩ := runEvent_next h
  · cases i with
    | enc msg => simp [isEncRequest_of_decode hd] at hreq
    | dec cw => exact (decFrame cw s t hexec).2.1
  · rfl
  · simp [isReset] at hreset

theorem runEvent_decRes {e : HostEvent} {s t : State} (h : runEvent e s = .next t)
    (he : isDecRequest e = false ∧ isReset e = false) : t.decRes = s.decRes := by
  obtain ⟨hreq, hreset⟩ := he
  obtain ⟨w, i, rfl, hd, hexec⟩ | ⟨vs, rfl, -⟩ | ⟨cut, rfl, -⟩ := runEvent_next h
  · cases i with
    | enc msg => exact (encFrame msg s t hexec).2.1
    | dec cw => simp [isDecRequest_of_decode hd] at hreq
  · rfl
  · simp [isReset] at hreset

/-- Settles O51: of the events only a request of the unit and reset write its latch. -/
theorem latchesWrittenByOwnUnit : Obligations.LatchesWrittenByOwnUnit := by
  intro s t h
  obtain ⟨-, ⟨-, rfl⟩ | ⟨e, rest, hp, hrun⟩⟩ := step_next h
  · exact ⟨fun _ => rfl, fun _ => rfl⟩
  · have hhead : e ∈ s.program.head? := by simp [hp]
    exact ⟨fun hall => (runEvent_encRes hrun (hall e hhead) :), fun hall => (runEvent_decRes hrun (hall e hhead) :)⟩

/-! ### Status codes (R34) -/

/-- R34: status code 3 is never produced. -/
theorem statusCode_ne_three (st : Status) : statusCode st ≠ 3 := by cases st <;> decide

/-- Settles O37: the codes, the kinds and the texts are the definitions' own; an error is written without a payload. -/
theorem statusCodes : Obligations.StatusCodes :=
  ⟨rfl, rfl, rfl, fun _ => rfl, rfl, rfl, rfl, rfl, writeDecRes_decRes_err, statusCode_ne_three⟩

end Sys2Proof.Machine
end

section
/-! PROOFS. The host's reads (spec/10_state.md R33, R35, R39; spec/30_encoding.md R87). -/

namespace Sys2Proof.Machine

/-- R39: reading a field that holds a value returns it. -/
theorem step_readField {s : State} {f : Field} {v : ReadValue} {rest : List HostEvent} (ha : Admitted s.messageLength)
    (hp : s.program = .readField f :: rest) (hv : fieldValue s f = some v) :
    step s = .next { s with program := rest, reads := s.reads ++ [(f, v)] } := by
  have hvalue : fieldValue { s with program := rest } f = some v := (fieldValue_host s rest s.reads f).trans hv
  exact (step_cons ha hp).trans (readFields_of_values [(f, v)] _ (by simpa using hvalue))

/-- R87: `RD` of a latch whose fields all hold a value returns them in order. -/
theorem step_readLatch {s : State} {l : Latch} {rest : List HostEvent} (ha : Admitted s.messageLength)
    (hp : s.program = .readLatch l :: rest) (vs : List (Field × ReadValue)) (hfields : vs.map Prod.fst = latchFields l)
    (hvs : ∀ p ∈ vs, fieldValue s p.1 = some p.2) :
    step s = .next { s with program := rest, reads := s.reads ++ vs } := by
  rw [step_cons ha hp, runEvent, ← hfields]
  exact readFields_of_values vs _ fun p hmem => (fieldValue_host s rest s.reads p.1).trans (hvs p hmem)

/-- R185: `RD` of a latch faults when one of its fields holds no value. -/
theorem step_readLatch_fault {s : State} {l : Latch} {rest : List HostEvent} (ha : Admitted s.messageLength)
    (hp : s.program = .readLatch l :: rest) {f : Field} (hf : f ∈ latchFields l) (hnone : fieldValue s f = none) :
    step s = .fault .hostReadOfNoValue := by
  rw [step_cons ha hp]
  exact readFields_of_none ⟨f, hf, (fieldValue_host s rest s.reads f).trans hnone⟩

/-- Settles O45: each field's value is the latch's own component. -/
theorem readReturnsCurrentValue : Obligations.ReadReturnsCurrentValue := by
  intro s f rest ha hp
  cases f with
  | encValid => exact step_readField ha hp rfl
  | encLen => exact fun n hn => step_readField ha hp (by simp [fieldValue, hn])
  | encData => exact fun d hd => step_readField ha hp (by simp [fieldValue, hd])
  | decValid => exact step_readField ha hp rfl
  | decStatus => exact fun st hst => step_readField ha hp (by simp [fieldValue, hst])
  | decLen => exact fun n hn => step_readField ha hp (by simp [fieldValue, hn])
  | decData => exact fun d hd => step_readField ha hp (by simp [fieldValue, hd])

/-- Settles O47: the fields of each latch in the order of R33; the first without a value is the fault. -/
theorem latchReads : Obligations.LatchReads := by
  intro s l rest ha hp
  cases l with
  | encRes =>
    refine ⟨?_, fun n d hn hd => ?_⟩
    · rintro (hlen | hdata)
      · exact step_readLatch_fault ha hp (f := .encLen) (by decide) (by simp [fieldValue, hlen])
      · exact step_readLatch_fault ha hp (f := .encData) (by decide) (by simp [fieldValue, hdata])
    · exact step_readLatch ha hp _ rfl (by simp [fieldValue, hn, hd])
  | decRes =>
    refine ⟨?_, fun st n d hst hn hd => ?_⟩
    · rintro (hstatus | hlen | hdata)
      · exact step_readLatch_fault ha hp (f := .decStatus) (by decide) (by simp [fieldValue, hstatus])
      · exact step_readLatch_fault ha hp (f := .decLen) (by decide) (by simp [fieldValue, hlen])
      · exact step_readLatch_fault ha hp (f := .decData) (by decide) (by simp [fieldValue, hdata])
    · exact step_readLatch ha hp _ rfl (by simp [fieldValue, hst, hn, hd])

end Sys2Proof.Machine
end

section
/-! PROOFS. What the encoder returns (spec/41_encoder.md R130 to R136): the message at the message positions, each check bit the
parity of its group, `G` the parity of the other bits. -/

namespace Sys2Proof.Machine

/-! ### Parity groups and roles (R62, R70) -/

/-- R70: the group of check position `2^t` holds the other positions whose binary digit `t` is set. -/
theorem inGroup_chk_iff {t p : Nat} : inGroup (chk t) p = true ↔ p ≠ 2 ^ t ∧ p.testBit t = true := by
  have hand : 2 ^ t &&& p = 2 ^ t * (p.testBit t).toNat := Nat.two_pow_and p t
  cases hbit : p.testBit t <;> simp [inGroup, chk, hand, hbit]

/-- R70: no check position is in the group of a check position. -/
theorem inGroup_chk_chk (t u : Nat) : inGroup (chk t) (chk u) = false := by
  rw [Bool.eq_false_iff, ne_eq, inGroup_chk_iff, chk, Nat.testBit_two_pow, decide_eq_true_iff]
  rintro ⟨hne, rfl⟩
  exact hne rfl

theorem role_chk (t : Nat) : role (chk t) = .check := role_eq_check_iff.mpr ⟨t, rfl⟩

theorem role_eq_globalParity_iff {p : Nat} : role p = .globalParity ↔ p = 0 := by
  unfold role
  split
  · simpa
  · split <;> simpa

/-- R70: the group of a check position holds message positions only. -/
theorem role_of_mem_group_chk {n t p : Nat} (h : p ∈ group n (chk t)) : role p = .message := by
  have hin : inGroup (chk t) p = true := (List.mem_filter.mp h).2
  cases hrole : role p with
  | message => rfl
  | globalParity =>
    obtain rfl := role_eq_globalParity_iff.mp hrole
    simp [inGroup] at hin
  | check =>
    obtain ⟨u, rfl⟩ := role_eq_check_iff.mp hrole
    exact absurd hin (by rw [show 2 ^ u = chk u from rfl, inGroup_chk_chk]; nofun)

theorem chk_lt_codeLength {M t : Nat} (h : t < checkCount M) : chk t < codeLength M := by
  have hle : 2 ^ t ≤ M := lt_checkCount_iff.mp h
  unfold chk codeLength
  omega

theorem nodup_ascendingChecks (k : Nat) : (ascendingChecks k).Nodup :=
  List.nodup_range.map (Nat.pow_right_injective le_rfl)

theorem mem_ascendingChecks {k p : Nat} : p ∈ ascendingChecks k ↔ ∃ t < k, chk t = p := by
  simp [ascendingChecks]

/-! ### The placed message -/

/-- R132: the placed bits at the message positions are the message, in order. -/
theorem map_placedBit_messagePositions (w m : BitSeq) (n : Nat) (h : (messagePositions n).length ≤ m.length) :
    (messagePositions n).map (placedBit w m) = m.take (messagePositions n).length := by
  induction n with
  | zero => rfl
  | succ n ih =>
    have hsplit : messagePositions (n + 1) = messagePositions n ++ if role n = .message then [n] else [] := by
      simp [messagePositions, filter_range_succ]
    rw [hsplit] at h ⊢
    by_cases hr : role n = .message
    · rw [if_pos hr, List.length_append, List.length_singleton] at h
      rw [if_pos hr, List.map_append, ih (by omega), List.map_singleton, List.length_append, List.length_singleton,
        List.take_add_one, placedBit, if_pos hr, bitAt_of_lt (by omega), List.getElem?_eq_getElem (by omega),
        Option.toList_some]
    · rw [if_neg hr, List.append_nil] at h ⊢
      exact ih h

/-! ### The normal path of the encoder (R130) -/

theorem codeLength_pos (M : Nat) : 0 < codeLength M := Nat.succ_pos _

/-- R132: the buffer after placement. -/
def placedWord (M : Nat) (m : BitSeq) : BitSeq :=
  (List.range (codeLength M)).map (placedBit (zeros (codeLength M)) m)

/-- R133, R134: the buffer after the check bits. -/
def checkedWord (M : Nat) (m : BitSeq) : BitSeq :=
  (List.range (codeLength M)).map fun p =>
    if p ∈ ascendingChecks (checkCount M) then
      (bitAt (placedWord M m) p ^^ xorOver (placedWord M m) (group (codeLength M) p))
    else bitAt (placedWord M m) p

/-- R135: the buffer after the global parity. -/
def encodedWord (M : Nat) (m : BitSeq) : BitSeq := (checkedWord M m).set 0 (parity (checkedWord M m))

@[simp] theorem length_placedWord (M : Nat) (m : BitSeq) : (placedWord M m).length = codeLength M := by simp [placedWord]
@[simp] theorem length_checkedWord (M : Nat) (m : BitSeq) : (checkedWord M m).length = codeLength M := by
  simp [checkedWord]
@[simp] theorem length_encodedWord (M : Nat) (m : BitSeq) : (encodedWord M m).length = codeLength M := by
  simp [encodedWord]

/-- The normal path completes with `encodedWord`. -/
theorem encodeNormal_eq {M : Nat} {m : BitSeq} (ha : Admitted M) (hm : m.length = M) :
    encodeNormal M m = .ok (encodedWord M m) := by
  have hplace : place (codeLength M) (zeros (codeLength M)) m = .ok (placedWord M m) :=
    place_eq (codeLength_pos M) (length_zeros _) (by rw [length_messagePositions_of_admitted ha, hm])
  have hlt : ∀ i ∈ ascendingChecks (checkCount M), i < codeLength M := fun i hi => by
    obtain ⟨t, ht, rfl⟩ := mem_ascendingChecks.mp hi
    exact chk_lt_codeLength ht
  have hsep : ∀ i ∈ ascendingChecks (checkCount M), ∀ j ∈ ascendingChecks (checkCount M), inGroup i j = false :=
    fun i hi j hj => by
      obtain ⟨t, -, rfl⟩ := mem_ascendingChecks.mp hi
      obtain ⟨u, -, rfl⟩ := mem_ascendingChecks.mp hj
      exact inGroup_chk_chk t u
  have hchecks : checksInOrder (codeLength M) (ascendingChecks (checkCount M)) (placedWord M m) = .ok (checkedWord M m) :=
    checksInOrder_eq _ _ (length_placedWord M m) hlt (nodup_ascendingChecks _) hsep
  have hparity : setGlobalParity (checkedWord M m) = .ok (encodedWord M m) :=
    setGlobalParity_eq ((length_checkedWord M m).symm ▸ codeLength_pos M)
  rw [encodeNormal, hplace, except_ok_bind, hchecks, except_ok_bind, hparity]

/-! ### The bits of the encoded word, role by role (R62) -/

theorem bitAt_placedWord {M p : Nat} (m : BitSeq) (h : p < codeLength M) :
    bitAt (placedWord M m) p = placedBit (zeros (codeLength M)) m p :=
  bitAt_map_range _ h

theorem bitAt_placedWord_of_ne_message {M p : Nat} (m : BitSeq) (h : p < codeLength M) (hr : role p ≠ .message) :
    bitAt (placedWord M m) p = false := by
  rw [bitAt_placedWord m h, placedBit, if_neg hr, bitAt_zeros]

theorem bitAt_checkedWord_of_ne_check {M p : Nat} (m : BitSeq) (h : p < codeLength M) (hr : role p ≠ .check) :
    bitAt (checkedWord M m) p = bitAt (placedWord M m) p := by
  have hnot : p ∉ ascendingChecks (checkCount M) := fun hmem => by
    obtain ⟨t, -, rfl⟩ := mem_ascendingChecks.mp hmem
    exact hr (role_chk t)
  rw [checkedWord, bitAt_map_range _ h, if_neg hnot]

theorem bitAt_checkedWord_chk {M t : Nat} (m : BitSeq) (ht : t < checkCount M) :
    bitAt (checkedWord M m) (chk t) = xorOver (placedWord M m) (group (codeLength M) (chk t)) := by
  have hne : role (chk t) ≠ .message := by rw [role_chk]; nofun
  rw [checkedWord, bitAt_map_range _ (chk_lt_codeLength ht), if_pos (mem_ascendingChecks.mpr ⟨t, ht, rfl⟩),
    bitAt_placedWord_of_ne_message m (chk_lt_codeLength ht) hne, Bool.false_xor]

theorem bitAt_checkedWord_zero (M : Nat) (m : BitSeq) : bitAt (checkedWord M m) 0 = false := by
  rw [bitAt_checkedWord_of_ne_check m (codeLength_pos M) (by decide),
    bitAt_placedWord_of_ne_message m (codeLength_pos M) (by decide)]

theorem bitAt_encodedWord_of_ne_zero (M : Nat) (m : BitSeq) {p : Nat} (h : p ≠ 0) :
    bitAt (encodedWord M m) p = bitAt (checkedWord M m) p := by
  rw [encodedWord, bitAt_set, if_neg fun hp => h hp.1]

theorem bitAt_encodedWord_zero (M : Nat) (m : BitSeq) : bitAt (encodedWord M m) 0 = parity (checkedWord M m) := by
  rw [encodedWord, bitAt_set, if_pos ⟨rfl, (length_checkedWord M m).symm ▸ codeLength_pos M⟩]

/-- Neither the check bits nor the global parity touch a message position. -/
theorem bitAt_encodedWord_of_message {M p : Nat} (m : BitSeq) (h : p < codeLength M) (hr : role p = .message) :
    bitAt (encodedWord M m) p = bitAt (placedWord M m) p := by
  have hp0 : p ≠ 0 := fun h0 => by rw [role_eq_globalParity_iff.mpr h0] at hr; cases hr
  rw [bitAt_encodedWord_of_ne_zero M m hp0, bitAt_checkedWord_of_ne_check m h (by rw [hr]; nofun)]

/-! ### The encoded word is a codeword of the message (R136, R137) -/

theorem isCodeword_iff {M : Nat} {w : BitSeq} :
    isCodeword M w = true ↔ w.length = codeLength M
      ∧ (∀ t < checkCount M, bitAt w (chk t) = xorOver w (group (codeLength M) (chk t)))
      ∧ bitAt w 0 = parity (w.drop 1) := by
  simp [isCodeword, and_assoc]

theorem bitAt_encodedWord_chk {M t : Nat} (m : BitSeq) (ht : t < checkCount M) :
    bitAt (encodedWord M m) (chk t) = xorOver (encodedWord M m) (group (codeLength M) (chk t)) := by
  have hgroup : xorOver (placedWord M m) (group (codeLength M) (chk t))
      = xorOver (encodedWord M m) (group (codeLength M) (chk t)) :=
    xorOver_congr fun p hp =>
      (bitAt_encodedWord_of_message m (mem_group.mp hp).1 (role_of_mem_group_chk hp)).symm
  have hpos : chk t ≠ 0 := (Nat.two_pow_pos t).ne'
  rw [bitAt_encodedWord_of_ne_zero M m hpos, bitAt_checkedWord_chk m ht, hgroup]

theorem bitAt_encodedWord_zero_eq_parity_drop (M : Nat) (m : BitSeq) :
    bitAt (encodedWord M m) 0 = parity ((encodedWord M m).drop 1) := by
  have hlen : 0 < (checkedWord M m).length := (length_checkedWord M m).symm ▸ codeLength_pos M
  have hdrop : (encodedWord M m).drop 1 = (checkedWord M m).drop 1 := List.drop_set_of_lt one_pos
  rw [bitAt_encodedWord_zero, parity_eq_first_xor hlen, bitAt_checkedWord_zero, Bool.false_xor, hdrop]

theorem isCodeword_encodedWord (M : Nat) (m : BitSeq) : isCodeword M (encodedWord M m) = true :=
  isCodeword_iff.mpr ⟨length_encodedWord M m, fun _ ht => bitAt_encodedWord_chk m ht,
    bitAt_encodedWord_zero_eq_parity_drop M m⟩

/-- R137: the bits of the encoded word at the message positions are the message. -/
theorem map_encodedWord_messagePositions {M : Nat} {m : BitSeq} (ha : Admitted M) (hm : m.length = M) :
    (messagePositions (codeLength M)).map (bitAt (encodedWord M m)) = m := by
  have hlen := length_messagePositions_of_admitted ha
  have hbits : ∀ p ∈ messagePositions (codeLength M),
      bitAt (encodedWord M m) p = placedBit (zeros (codeLength M)) m p := fun p hp => by
    obtain ⟨hlt, hr⟩ := List.mem_filter.mp hp
    rw [List.mem_range] at hlt
    rw [bitAt_encodedWord_of_message m hlt (by simpa using hr), bitAt_placedWord m hlt]
  rw [List.map_congr_left hbits, map_placedBit_messagePositions _ _ _ (by omega), List.take_of_length_le (by omega)]

/-- R137: only the all-zero message has an all-zero codeword. -/
theorem isZero_of_isZero_encodedWord {M : Nat} {m : BitSeq} (ha : Admitted M) (hm : m.length = M)
    (h : isZero (encodedWord M m) = true) : isZero m = true := by
  rw [← map_encodedWord_messagePositions ha hm, isZero, List.all_map, List.all_eq_true]
  intro p _
  simp [(isZero_iff _).mp h p]

theorem isCodeword_zeros (M : Nat) : isCodeword M (zeros (codeLength M)) = true :=
  isCodeword_iff.mpr ⟨length_zeros _, fun t _ => by rw [bitAt_zeros, xorOver_zeros],
    by rw [bitAt_zeros, zeros, List.drop_replicate]; exact (parity_zeros _).symm⟩

end Sys2Proof.Machine
end

section
/-! PROOFS. What the decoder returns (spec/42_decoder.md R151 to R159): an error, or a message of `M` bits, or the all-zero word
unchanged. -/

namespace Sys2Proof.Machine

/-- R157, R159: a decode that passes the global-parity check returns the message of the working copy, `M` bits. -/
theorem finishCall_payload_length {M : Nat} {call call' : DecodeCall} {w r : BitSeq} (ha : Admitted M)
    (hw : w.length = codeLength M) (h : finishCall M call w = .ok call') (hr : call'.result = .ok r) : r.length = M := by
  have hpos : 0 < w.length := hw ▸ codeLength_pos M
  have hcount : (messagePositions w.length).length = M := hw ▸ length_messagePositions_of_admitted ha
  rw [finishCall_eq call hpos hcount] at h
  obtain rfl := Except.ok.inj h
  cases hp : parity w with
  | true => simp [hp] at hr
  | false =>
    simp only [hp, Bool.false_eq_true, if_false, DecodeResult.ok.injEq] at hr
    rw [← hr, List.length_map, hcount]

/-- R155: a success of the normal path has `M` message bits, whichever class the syndrome falls in. -/
theorem classifyCall_payload_length {M S : Nat} {c orig prime r : BitSeq} {call : DecodeCall} (ha : Admitted M)
    (hc : c.length = codeLength M) (h : classifyCall M c orig prime S = .ok call) (hr : call.result = .ok r) :
    r.length = M := by
  unfold classifyCall at h
  split at h
  · exact finishCall_payload_length ha hc h hr
  · split at h
    · rename_i hS
      rw [toggleBit_eq hS, except_ok_bind] at h
      exact finishCall_payload_length ha (by rw [length_flipAt, hc]) h hr
    · obtain rfl := Except.ok.inj h
      cases hr

/-- R152: the check bits that stand in the received word. -/
def receivedChecks (M : Nat) (c : BitSeq) : BitSeq := (checkPositions (codeLength M)).map (bitAt c)

/-- R153: the check bits that the received word's groups call for. -/
def recomputedChecks (M : Nat) (c : BitSeq) : BitSeq :=
  (List.range (checkCount M)).map fun t => xorOver c (group (codeLength M) (chk t))

/-- R152, R153: extraction and recomputation complete, so the normal path is the classification by the syndrome. -/
theorem decodeNormal_eq {M : Nat} {c : BitSeq} (ha : Admitted M) (hc : c.length = codeLength M) :
    decodeNormal M c = classifyCall M c (receivedChecks M c) (recomputedChecks M c)
      (syndromeOf (recomputedChecks M c) (receivedChecks M c)) := by
  have hcount : (checkPositions c.length).length = minimumCheckBits M := by
    rw [hc, checkPositions_of_admitted ha, List.length_map, List.length_range, checkCount]
  rw [decodeNormal, extractCheckBits_eq hcount, except_ok_bind, recompute_eq hc.ge, except_ok_bind, hc]
  rfl

/-- R151, R159: a successful decode returns `M` bits, or the all-zero word of `N` bits. -/
theorem decodeCodeword_payload {M : Nat} {c r : BitSeq} (ha : Admitted M) (hc : c.length = codeLength M)
    (h : decodeCodeword M c = .ok (.ok r)) : r.length = M ∨ (r.length = codeLength M ∧ isZero r = true) := by
  unfold decodeCodeword at h
  split at h
  · rename_i call hcall
    have hr : call.result = .ok r := Except.ok.inj h
    unfold decodeCall at hcall
    split at hcall
    · rename_i hzero
      obtain rfl := Except.ok.inj hcall
      obtain rfl := DecodeResult.ok.inj hr
      exact .inr ⟨hc, hzero⟩
    · rw [decodeNormal_eq ha hc] at hcall
      exact .inl (classifyCall_payload_length ha hc hcall hr)
  · cases h

end Sys2Proof.Machine
end

section
/-! PROOFS. The state invariant (spec/10_state.md R33, R35, R40): it holds at reset, and every step keeps it. -/

namespace Sys2Proof.Machine

theorem stateOk_iff {s : State} :
    stateOk s = true ↔ Admitted s.messageLength ∧ encLatchOk s.messageLength s.encRes = true
      ∧ decLatchOk s.messageLength s.decRes = true := by
  simp only [stateOk, Bool.and_eq_true, decide_eq_true_iff, and_assoc]

/-! ### Reset (R40) -/

theorem encLatchOk_reset (M : Nat) : encLatchOk M EncLatch.reset = true := rfl
theorem decLatchOk_reset (M : Nat) : decLatchOk M DecLatch.reset = true := rfl

/-- Settles O48: the state after reset, spelt out. -/
theorem resetState : Obligations.ResetState := ⟨fun _ => rfl, rfl⟩

theorem stateOk_resetOf {M : Nat} (ha : Admitted M) : stateOk (State.resetOf M) = true :=
  stateOk_iff.mpr ⟨ha, encLatchOk_reset M, decLatchOk_reset M⟩

/-- Settles O52: both latches hold nothing at reset, and the default `M` is admitted. -/
theorem resetStateOk : Obligations.ResetStateOk :=
  ⟨fun _ ha => stateOk_resetOf ha, stateOk_resetOf (by decide)⟩

theorem stateOk_resetInstance {s : State} (h : stateOk s = true) : stateOk (resetInstance s) = true :=
  stateOk_iff.mpr ⟨(stateOk_iff.mp h).1, encLatchOk_reset _, decLatchOk_reset _⟩

/-! ### What `ENC` writes (R36, R131, R136) -/

theorem isZero_zext (n : Nat) (s : BitSeq) : isZero (zext n s) = isZero s := by
  rw [Bool.eq_iff_iff, isZero_iff, isZero_iff]
  simp only [bitAt_zext]

theorem encLatchOk_writeEncRes {s : State} {m r : BitSeq} (ha : Admitted s.messageLength)
    (hm : m.length = s.messageLength) (hr : encodeMessage s.messageLength m = .ok r) :
    encLatchOk s.messageLength (writeEncRes s r).encRes = true := by
  unfold encodeMessage at hr
  split at hr
  · rename_i hzero
    obtain rfl := Except.ok.inj hr
    have hdata : zext (codeLength s.messageLength) m = zeros (codeLength s.messageLength) := by
      have heq := eq_zeros_of_isZero ((isZero_zext (codeLength s.messageLength) m).trans hzero)
      rwa [length_zext (hm ▸ le_codeLength _)] at heq
    simp [encLatchOk, hdata, isCodeword_zeros, hm]
  · rename_i hzero
    rw [encodeNormal_eq ha hm] at hr
    obtain rfl := Except.ok.inj hr
    have hnonzero : isZero (encodedWord s.messageLength m) = false :=
      Bool.eq_false_iff.mpr fun h => hzero (isZero_of_isZero_encodedWord ha hm h)
    simp [encLatchOk, zext_of_length, isCodeword_encodedWord, hnonzero]

/-! ### What `DEC` writes (R34, R35, R36, R151) -/

theorem isZero_drop_iff {s : BitSeq} {k : Nat} : isZero (s.drop k) = true ↔ ∀ p, bitAt s (k + p) = false := by
  simp [isZero_iff, bitAt]

theorem decLatchOk_writeDecRes_ok {s : State} {r : BitSeq}
    (hr : r.length = s.messageLength ∨ (r.length = codeLength s.messageLength ∧ isZero r = true)) :
    decLatchOk s.messageLength (writeDecRes s (.ok r)).decRes = true := by
  have hle := le_codeLength s.messageLength
  have hlen : (zext (codeLength s.messageLength) r).length = codeLength s.messageLength := length_zext (by omega)
  have hhigh : isZero ((zext (codeLength s.messageLength) r).drop s.messageLength) = true := by
    refine isZero_drop_iff.mpr fun p => ?_
    rw [bitAt_zext]
    obtain hM | ⟨-, hzero⟩ := hr
    · exact bitAt_of_le (by omega)
    · exact (isZero_iff r).mp hzero _
  obtain hM | ⟨hN, hzero⟩ := hr
  · simp [decLatchOk, hlen, hhigh, hM]
  · simp [decLatchOk, hlen, hhigh, hN, isZero_zext, hzero]

theorem decLatchOk_writeDecRes_err (s : State) (e : DecodeError) :
    decLatchOk s.messageLength (writeDecRes s (.err e)).decRes = true := by cases e <;> rfl

theorem decLatchOk_writeDecRes {s : State} {c : BitSeq} {res : DecodeResult} (ha : Admitted s.messageLength)
    (hc : c.length = codeLength s.messageLength) (hres : decodeCodeword s.messageLength c = .ok res) :
    decLatchOk s.messageLength (writeDecRes s res).decRes = true := by
  cases res with
  | ok r => exact decLatchOk_writeDecRes_ok (decodeCodeword_payload ha hc hres)
  | err e => exact decLatchOk_writeDecRes_err s e

/-! ### Operations, events, steps -/

theorem exec_stateOk {i : Instr} {s t : State} (hs : stateOk s = true) (h : exec i s = .next t) : stateOk t = true := by
  obtain ⟨ha, henc, hdec⟩ := stateOk_iff.mp hs
  cases i with
  | enc msg =>
    obtain ⟨-, hm, r, hr, rfl⟩ := execEnc_next h
    exact stateOk_iff.mpr ⟨ha, encLatchOk_writeEncRes ha hm hr, hdec⟩
  | dec cw =>
    obtain ⟨-, hc, res, hres, rfl⟩ := execDec_next h
    rw [stateOk_iff, writeDecRes_messageLength, writeDecRes_encRes]
    exact ⟨ha, henc, decLatchOk_writeDecRes ha hc hres⟩

theorem runEvent_stateOk {e : HostEvent} {s t : State} (hs : stateOk s = true) (h : runEvent e s = .next t) :
    stateOk t = true := by
  obtain ⟨w, i, -, -, hexec⟩ | ⟨vs, rfl, -⟩ | ⟨cut, -, rfl⟩ := runEvent_next h
  · exact exec_stateOk hs hexec
  · exact hs
  · exact stateOk_resetInstance hs

/-- Settles O53: a step is an event or idles; of the events a request writes one latch with a well-formed result, a read writes
none, and reset clears both. -/
theorem stepKeepsStateOk : Obligations.StepKeepsStateOk := by
  intro s t hs h
  obtain ⟨-, ⟨-, rfl⟩ | ⟨e, rest, -, hrun⟩⟩ := step_next h
  · exact hs
  · have hpopped : stateOk { s with program := rest } = true := hs
    exact runEvent_stateOk hpopped hrun

end Sys2Proof.Machine
end

section
/-! PROOFS. The position map of a codeword (spec/20_memory.md R62, R63, R70): the three roles, the enumeration of the message
positions by `slot`, and the parity groups. -/

namespace Sys2Proof.Machine

/-! ### Roles (R62) -/

theorem role_eq_message_iff {p : Nat} : role p = .message ↔ p ≠ 0 ∧ ∀ t, p ≠ 2 ^ t := by
  have hother : role p = .message ↔ role p ≠ .globalParity ∧ role p ≠ .check := by cases role p <;> decide
  rw [hother, ne_eq, role_eq_globalParity_iff, ne_eq, role_eq_check_iff, not_exists]

/-- Settles O9: the three roles, each by the positions that have it. -/
theorem rolesOfPositions : Obligations.RolesOfPositions :=
  fun _ => ⟨role_eq_globalParity_iff, role_eq_check_iff, role_eq_message_iff⟩

/-! ### Parity groups (R70) -/

theorem zero_not_mem_group (n i : Nat) : 0 ∉ group n i := by simp [mem_group]

theorem chk_not_mem_group_chk (n t u : Nat) : chk u ∉ group n (chk t) := by simp [group, inGroup_chk_chk]

/-- R70(c): a message position is in the groups of exactly the check positions that are its set digits. -/
theorem mem_group_chk_iff_testBit {n t p : Nat} (hp : p < n) (hr : role p = .message) :
    p ∈ group n (chk t) ↔ p.testBit t = true := by
  have hne : p ≠ 2 ^ t := (role_eq_message_iff.mp hr).2 t
  simp [group, inGroup_chk_iff, hp, hne]

/-- Settles O11: membership as defined, and its consequences (a), (b), (c). -/
theorem parityGroups : Obligations.ParityGroups :=
  fun n t => ⟨fun _ => mem_group, zero_not_mem_group n _, chk_not_mem_group_chk n t,
    fun _ hj => role_of_mem_group_chk hj, fun _ hp hr => mem_group_chk_iff_testBit hp hr⟩

/-! ### How many message positions stand below a bound (R63) -/

theorem mem_messagePositions {n p : Nat} : p ∈ messagePositions n ↔ p < n ∧ role p = .message := by
  simp [messagePositions]

theorem messagePositions_succ (n : Nat) :
    messagePositions (n + 1) = messagePositions n ++ if role n = .message then [n] else [] := by
  simp [messagePositions, filter_range_succ]

/-- R63: the closed form; of the positions `1 .. p`, the powers of two up to `p` are check positions. -/
theorem length_messagePositions_succ_eq {p : Nat} (hp : 1 ≤ p) :
    (messagePositions (p + 1)).length = p - 1 - Nat.log2 p := by
  have hpow : ∀ t, 2 ^ t < p + 1 ↔ t < Nat.log2 p + 1 := fun t => by
    rw [Nat.lt_succ_iff, Nat.lt_succ_iff, Nat.le_log2 (by omega)]
  have hcheck : (checkPositions (p + 1)).length = Nat.log2 p + 1 := by
    rw [checkPositions_eq hpow, List.length_map, List.length_range]
  have hsum := length_checkPositions_add_messagePositions p
  omega

/-- R63: `slot t` is read inside the list of message positions below `2t + 4`. -/
theorem lt_length_messagePositions (t : Nat) : t < (messagePositions (2 * t + 4)).length := by
  have hcount : (messagePositions (2 * t + 4)).length = 2 * t + 3 - 1 - Nat.log2 (2 * t + 3) :=
    length_messagePositions_succ_eq (by omega)
  have hpow : 2 * t + 3 < 2 ^ (t + 2) := by
    have : t + 1 ≤ 2 ^ t := Nat.lt_two_pow_self
    rw [pow_add]; omega
  have hlog : Nat.log2 (2 * t + 3) < t + 2 := (Nat.log2_lt (by omega)).mpr hpow
  omega

/-! ### `slot` enumerates the message positions (R63) -/

theorem messagePositions_isPrefix {m n : Nat} (h : m ≤ n) : messagePositions m <+: messagePositions n := by
  induction h with
  | refl => exact List.prefix_refl _
  | step _ ih => exact ih.trans (messagePositions_succ _ ▸ List.prefix_append _ _)

/-- The lists for two bounds agree as far as both reach, so `slot` reads every one of them. -/
theorem getElem_messagePositions {n t : Nat} (h : t < (messagePositions n).length) : (messagePositions n)[t] = slot t := by
  have ht := lt_length_messagePositions t
  have hslot : slot t = (messagePositions (2 * t + 4))[t] := List.getD_eq_getElem _ _ ht
  rw [hslot]
  obtain hle | hle := le_total n (2 * t + 4)
  · exact (messagePositions_isPrefix hle).getElem h
  · exact ((messagePositions_isPrefix hle).getElem ht).symm

theorem messagePositions_eq_map_slot (n : Nat) :
    messagePositions n = (List.range (messagePositions n).length).map slot :=
  List.ext_getElem (by simp) fun t ht _ => by simpa using getElem_messagePositions ht

theorem slot_mem_messagePositions (t : Nat) : slot t ∈ messagePositions (2 * t + 4) :=
  getElem_messagePositions (lt_length_messagePositions t) ▸ List.getElem_mem _

theorem role_slot (t : Nat) : role (slot t) = .message := (mem_messagePositions.mp (slot_mem_messagePositions t)).2

theorem slot_length_messagePositions {p : Nat} (hr : role p = .message) : slot (messagePositions p).length = p := by
  have hsucc : messagePositions (p + 1) = messagePositions p ++ [p] := by rw [messagePositions_succ, if_pos hr]
  rw [← getElem_messagePositions (n := p + 1) (by simp [hsucc])]
  simp [hsucc]

/-- R63: `slot t` is the message position with `t` message positions before it. -/
theorem length_messagePositions_slot (t : Nat) : (messagePositions (slot t)).length = t := by
  have hnodup : (messagePositions (2 * t + 4)).Nodup := List.nodup_range.filter _
  have hlt : slot t < 2 * t + 4 := (mem_messagePositions.mp (slot_mem_messagePositions t)).1
  have hbefore : (messagePositions (slot t)).length < (messagePositions (2 * t + 4)).length := by
    have hmono := length_messagePositions_mono (show slot t + 1 ≤ 2 * t + 4 from hlt)
    rw [length_messagePositions_succ, if_pos (role_slot t)] at hmono
    exact hmono
  refine (hnodup.getElem_inj_iff (hi := hbefore) (hj := lt_length_messagePositions t)).mp ?_
  rw [getElem_messagePositions, getElem_messagePositions, slot_length_messagePositions (role_slot t)]

theorem length_messagePositions_slot_succ (t : Nat) : (messagePositions (slot t + 1)).length = t + 1 := by
  rw [length_messagePositions_succ, if_pos (role_slot t), length_messagePositions_slot]

/-- R63: no smaller position has `t + 1` message positions up to it. -/
theorem slot_le_of_length {t p : Nat} (h : (messagePositions (p + 1)).length = t + 1) : slot t ≤ p := by
  by_contra hlt
  have hmono := length_messagePositions_mono (show p + 1 ≤ slot t by omega)
  rw [h, length_messagePositions_slot] at hmono
  omega

theorem one_le_slot (t : Nat) : 1 ≤ slot t := Nat.one_le_iff_ne_zero.mpr (role_eq_message_iff.mp (role_slot t)).1

/-- Settles O10: the enumeration, the count up to `p`, `slot` as the least position with a given count, the table of R63. -/
theorem slotEnumeratesMessagePositions : Obligations.SlotEnumeratesMessagePositions := by
  refine ⟨fun M ha => ?_, fun p hp => length_messagePositions_succ_eq hp, fun t => ⟨one_le_slot t, ?_, ?_⟩, ?_⟩
  · rw [messagePositions_eq_map_slot, length_messagePositions_of_admitted ha]
  · rw [← length_messagePositions_succ_eq (one_le_slot t), length_messagePositions_slot_succ]
  · exact fun p hp h => slot_le_of_length ((length_messagePositions_succ_eq hp).trans h)
  · exact (messagePositions_eq_map_slot 22).symm.trans (by decide)

end Sys2Proof.Machine
end

section
/-! PROOFS. A sequence of requests (spec/20_memory.md R67(b)): every request of an admitted instance completes, and each latch ends
with the result of the last request to its unit. -/

namespace Sys2Proof.Machine

/-! ### Every request completes (R36) -/

theorem encodeMessage_completes {M : Nat} {m : BitSeq} (ha : Admitted M) (hm : m.length = M) :
    ∃ r, encodeMessage M m = .ok r := by
  by_cases hzero : isZero m = true
  · exact ⟨m, if_pos hzero⟩
  · exact ⟨encodedWord M m, (if_neg hzero).trans (encodeNormal_eq ha hm)⟩

theorem finishCall_completes {M : Nat} {w : BitSeq} (ha : Admitted M) (hw : w.length = codeLength M)
    (call : DecodeCall) : ∃ call', finishCall M call w = .ok call' :=
  ⟨_, finishCall_eq call (hw ▸ codeLength_pos M) (hw ▸ length_messagePositions_of_admitted ha)⟩

/-- R155: each of the three classes of the syndrome completes. -/
theorem classifyCall_completes {M : Nat} {c : BitSeq} (ha : Admitted M) (hc : c.length = codeLength M)
    (orig prime : BitSeq) (S : Nat) : ∃ call, classifyCall M c orig prime S = .ok call := by
  unfold classifyCall
  split
  · exact finishCall_completes ha hc _
  · split
    · rename_i hS
      rw [toggleBit_eq hS, except_ok_bind]
      exact finishCall_completes ha ((length_flipAt c S).trans hc) _
    · exact ⟨_, rfl⟩

theorem decodeCall_completes {M : Nat} {c : BitSeq} (ha : Admitted M) (hc : c.length = codeLength M) :
    ∃ call, decodeCall M c = .ok call := by
  unfold decodeCall
  split
  · exact ⟨_, rfl⟩
  · rw [decodeNormal_eq ha hc]
    exact classifyCall_completes ha hc _ _ _

theorem exec_completes {i : Instr} {s : State} (ha : Admitted s.messageLength) (hi : WellFormed s.messageLength i) :
    ∃ t, exec i s = .next t := by
  cases i with
  | enc msg =>
    obtain ⟨r, hr⟩ := encodeMessage_completes ha hi
    exact ⟨_, execEnc_of_encodeMessage ha hi hr⟩
  | dec cw =>
    obtain ⟨call, hcall⟩ := decodeCall_completes ha hi
    exact ⟨_, execDec_of_decodeCodeword ha hi (decodeCodeword_of_decodeCall hcall)⟩

/-! ### What no operation changes -/

theorem exec_program {i : Instr} {s t : State} (h : exec i s = .next t) : t.program = s.program := by
  cases i with
  | enc msg => exact (encFrame msg s t h).2.2.1
  | dec cw => exact (decFrame cw s t h).2.2.1

theorem exec_reads {i : Instr} {s t : State} (h : exec i s = .next t) : t.reads = s.reads := by
  cases i with
  | enc msg => exact (encFrame msg s t h).2.2.2
  | dec cw => exact (decFrame cw s t h).2.2.2

/-! ### A latch after a sequence of requests -/

/-- R67: `l` is what `latch` holds after a sequence of requests started on `s`; `last` is the operand of the last of them that goes
to the latch's unit, if any, and `request` makes that unit's requests. -/
def LatchAfter {α : Type} (request : BitSeq → Instr) (latch : State → α) (s : State) : Option BitSeq → α → Prop
  | none, l => l = latch s
  | some x, l => ∃ u, exec (request x) s = .next u ∧ l = latch u

/-- R37: what the unit writes into its latch depends on the request and on `M` alone. -/
def IgnoresLatches {α : Type} (request : BitSeq → Instr) (latch : State → α) : Prop :=
  ∀ (x : BitSeq) (s u t : State), s.messageLength = u.messageLength → exec (request x) s = .next t →
    ∃ v, exec (request x) u = .next v ∧ latch v = latch t

theorem ignoresLatches_enc : IgnoresLatches .enc State.encRes := fun x => resultsIgnoreLatches (.enc x)

theorem ignoresLatches_dec : IgnoresLatches .dec State.decRes := fun x => resultsIgnoreLatches (.dec x)

/-- The state the sequence started on counts only by its `M` once there is a last request, else by its latch. -/
theorem LatchAfter.congr {α : Type} {request : BitSeq → Instr} {latch : State → α} {s t : State}
    {last : Option BitSeq} {l : α} (h : LatchAfter request latch t last l) (hunit : IgnoresLatches request latch)
    (hM : t.messageLength = s.messageLength) (hlatch : last = none → latch t = latch s) :
    LatchAfter request latch s last l := by
  cases last with
  | none => exact h.trans (hlatch rfl)
  | some x =>
    obtain ⟨u, hexec, rfl⟩ := h
    obtain ⟨v, hv, hres⟩ := hunit x t s u hM hexec
    exact ⟨v, hv, hres.symm⟩

/-- A first request to the unit itself counts exactly when no later one follows. -/
theorem LatchAfter.cons_own {α : Type} {request : BitSeq → Instr} {latch : State → α} {s t : State}
    {last : Option BitSeq} {l : α} {x : BitSeq} (h : LatchAfter request latch t last l)
    (hunit : IgnoresLatches request latch) (hexec : exec (request x) s = .next t) :
    LatchAfter request latch s (some (last.getD x)) l := by
  cases last with
  | none => exact ⟨t, hexec, h⟩
  | some y => exact LatchAfter.congr (last := some y) h hunit (exec_messageLength hexec) nofun

theorem latchAfter_lastEnc_cons {i : Instr} {is : List Instr} {s t : State} {l : EncLatch} (hexec : exec i s = .next t)
    (h : LatchAfter .enc State.encRes t (lastEnc is) l) : LatchAfter .enc State.encRes s (lastEnc (i :: is)) l := by
  cases i with
  | enc msg => exact h.cons_own ignoresLatches_enc hexec
  | dec cw => exact h.congr ignoresLatches_enc (exec_messageLength hexec) fun _ => (decFrame cw s t hexec).2.1

theorem latchAfter_lastDec_cons {i : Instr} {is : List Instr} {s t : State} {l : DecLatch} (hexec : exec i s = .next t)
    (h : LatchAfter .dec State.decRes t (lastDec is) l) : LatchAfter .dec State.decRes s (lastDec (i :: is)) l := by
  cases i with
  | enc msg => exact h.congr ignoresLatches_dec (exec_messageLength hexec) fun _ => (encFrame msg s t hexec).2.1
  | dec cw => exact h.cons_own ignoresLatches_dec hexec

/-! ### Runs -/

theorem run_succ_of_step {s t : State} (h : step s = .next t) (k : Nat) :
    Host.Core.run core (k + 1) s = Host.Core.run core k t := by
  have hstep : core.step s = .next t := h
  simp only [Host.Core.run, hstep]

/-- A step whose next event is a request of the instance completes: the request is taken off the program and run. -/
theorem step_request_completes {s : State} {i : Instr} {rest : List HostEvent} (ha : Admitted s.messageLength)
    (hi : WellFormed s.messageLength i) (hp : s.program = .request (encode i) :: rest) :
    ∃ t, step s = .next t ∧ exec i { s with program := rest } = .next t := by
  obtain ⟨t, hexec⟩ := exec_completes (s := { s with program := rest }) ha hi
  exact ⟨t, (step_request ha hp (decode_encode hi)).trans hexec, hexec⟩

/-- R67(b), by induction over the requests: each takes one step, and the state it leaves is the start of the rest. -/
theorem run_requests (reqs : List Instr) (s : State) (ha : Admitted s.messageLength)
    (hwf : ∀ i ∈ reqs, WellFormed s.messageLength i) (hp : s.program = reqs.map fun i => .request (encode i)) :
    ∃ t : State, Host.Core.run core reqs.length s = .next t ∧ t.program = [] ∧ t.reads = s.reads ∧
      LatchAfter .enc State.encRes s (lastEnc reqs) t.encRes ∧ LatchAfter .dec State.decRes s (lastDec reqs) t.decRes := by
  induction reqs generalizing s with
  | nil => exact ⟨s, rfl, hp, rfl, rfl, rfl⟩
  | cons i is ih =>
    obtain ⟨hi, his⟩ := List.forall_mem_cons.mp hwf
    obtain ⟨u, hstep, hexec⟩ := step_request_completes ha hi hp
    have hM : u.messageLength = s.messageLength := step_messageLength hstep
    have hreads : u.reads = s.reads := (exec_reads hexec :)
    obtain ⟨t, hrun, hprogram, ht, henc, hdec⟩ := ih u (hM ▸ ha) (hM ▸ his) (exec_program hexec)
    refine ⟨t, (run_succ_of_step hstep _).trans hrun, hprogram, ht.trans hreads, ?_, ?_⟩
    · exact (latchAfter_lastEnc_cons hexec henc).congr ignoresLatches_enc rfl fun _ => rfl
    · exact (latchAfter_lastDec_cons hexec hdec).congr ignoresLatches_dec rfl fun _ => rfl

/-- Settles O54: each latch, after the run, holds the result of the last request to its unit. -/
theorem latchesHoldLastResults : Obligations.LatchesHoldLastResults := by
  intro s reqs ha hwf hp
  obtain ⟨t, hrun, hprogram, hreads, henc, hdec⟩ := run_requests reqs s ha hwf hp
  refine ⟨t, hrun, hprogram, hreads, fun h => ?_, fun m h => ?_, fun h => ?_, fun c h => ?_⟩
  · rw [h] at henc; exact henc
  · rw [h] at henc; exact henc
  · rw [h] at hdec; exact hdec
  · rw [h] at hdec; exact hdec

end Sys2Proof.Machine
end

section
/-! PROOFS. Several instances (spec/20_memory.md R67(c), spec/60_exceptions.md R192): steps of different instances commute, so the
order of an interleaving is not observable. -/

namespace Sys2Proof.Machine

/-! ### When a step of one instance completes -/

theorem stepInstance_of_none {sys : List State} {k : Nat} (h : sys[k]? = none) : stepInstance sys k = .next sys := by
  simp [stepInstance, h]

theorem stepInstance_of_step {sys : List State} {k : Nat} {s t : State} (hk : sys[k]? = some s) (h : step s = .next t) :
    stepInstance sys k = .next (sys.set k t) := by
  simp [stepInstance, hk, h]

/-- R192: whether and how an instance steps depends on it alone, so it steps the same where another has stepped before. -/
theorem stepInstance_set {sys : List State} {j k : Nat} {s t u : State} (hne : j ≠ k) (hj : sys[j]? = some s)
    (h : step s = .next t) : stepInstance (sys.set k u) j = .next ((sys.set k u).set j t) :=
  stepInstance_of_step ((List.getElem?_set_ne hne.symm).trans hj) h

/-- R67(c): two steps that complete in one order complete in the other, with the same instances. -/
theorem stepInstance_comm {sys mid sys' : List State} {j k : Nat} (hj : stepInstance sys j = .next mid)
    (hk : stepInstance mid k = .next sys') :
    ∃ mid', stepInstance sys k = .next mid' ∧ stepInstance mid' j = .next sys' := by
  by_cases hne : j = k
  · subst hne
    exact ⟨mid, hj, hk⟩
  obtain ⟨hjnone, rfl⟩ | ⟨s, t, hjs, hst, rfl⟩ := stepInstance_next hj
  · obtain ⟨_, rfl⟩ | ⟨_, _, _, _, rfl⟩ := stepInstance_next hk
    · exact ⟨_, hk, hj⟩
    · exact ⟨_, hk, stepInstance_of_none ((List.getElem?_set_ne (Ne.symm hne)).trans hjnone)⟩
  · obtain ⟨hknone, rfl⟩ | ⟨u, v, hku, huv, rfl⟩ := stepInstance_next hk
    · exact ⟨sys, stepInstance_of_none ((List.getElem?_set_ne hne).symm.trans hknone), hj⟩
    · refine ⟨sys.set k v, stepInstance_of_step ((List.getElem?_set_ne hne).symm.trans hku) huv, ?_⟩
      rw [List.set_comm t v hne]
      exact stepInstance_set hne hjs hst

/-! ### Interleavings -/

theorem runInterleaving_cons_eq_next_iff {k : Nat} {ks : List Nat} {sys sys' : List State} :
    runInterleaving (k :: ks) sys = .next sys' ↔
      ∃ mid, stepInstance sys k = .next mid ∧ runInterleaving ks mid = .next sys' := by
  rw [runInterleaving]
  cases h : stepInstance sys k <;> simp

/-- Settles O55: a permutation is made of exchanges of neighbours, and two neighbouring steps commute. -/
theorem interleavingsCommute : Obligations.InterleavingsCommute := by
  intro ks js sys sys' hperm
  induction hperm generalizing sys with
  | nil => exact id
  | cons k _ ih =>
    simp only [runInterleaving_cons_eq_next_iff]
    rintro ⟨mid, hstep, hrun⟩
    exact ⟨mid, hstep, ih mid hrun⟩
  | swap j k ks =>
    simp only [runInterleaving_cons_eq_next_iff]
    rintro ⟨mid, hk, mid₂, hj, hrun⟩
    obtain ⟨mid', hj', hk'⟩ := stepInstance_comm hk hj
    exact ⟨mid', hj', mid₂, hk', hrun⟩
  | trans _ _ ih₁ ih₂ => exact fun h => ih₂ sys (ih₁ sys h)

end Sys2Proof.Machine
end

section
/-! PROOFS. Every nonempty word is `encode i` for one operation `i`, well formed or not, so what the decoder does with a word
(spec/30_encoding.md R81 to R86) is said by comparing the width of `i`'s operand with the port's. -/

namespace Sys2Proof.Machine

/-! ### What the decoder answers, by the width of the operand -/

theorem decode_of_decodePrefix_error {M : Nat} {w : BitSeq} {e : DecodeReject} (h : decodePrefix M w = .error e) :
    decode M w = .error e := by
  simp [decode, h]

theorem decode_encode_append {M : Nat} {i : Instr} {rest : BitSeq} (h : WellFormed M i) (hrest : rest ≠ []) :
    decode M (encode i ++ rest) = .error .tooLong := by
  obtain ⟨b, rest', rfl⟩ := List.exists_cons_of_ne_nil hrest
  simp [decode, decodePrefix_eq_ok_iff.mpr ⟨h, rfl⟩]

theorem takeOperand_of_lt {n : Nat} {s : BitSeq} (h : s.length < n) : takeOperand n s = .error .tooShort :=
  if_neg (Nat.not_le_of_lt h)

theorem decode_encode_of_lt {M : Nat} {i : Instr} (h : i.operand.length < operandWidth M i) :
    decode M (encode i) = .error .tooShort := by
  refine decode_of_decodePrefix_error ?_
  cases i with
  | enc msg =>
    have hshort : takeOperand M msg = .error .tooShort := takeOperand_of_lt h
    simp [encode, decodePrefix, hshort]
  | dec cw =>
    have hshort : takeOperand (codeLength M) cw = .error .tooShort := takeOperand_of_lt h
    simp [encode, decodePrefix, hshort]

theorem decode_encode_of_gt {M : Nat} {i : Instr} (h : operandWidth M i < i.operand.length) :
    decode M (encode i) = .error .tooLong := by
  have hrest : i.operand.drop (operandWidth M i) ≠ [] := List.drop_eq_nil_iff.not.mpr (Nat.not_le_of_lt h)
  have htake : (i.operand.take (operandWidth M i)).length = operandWidth M i := List.length_take_of_le h.le
  cases i with
  | enc msg =>
    have hlong := decode_encode_append (M := M) (i := .enc (msg.take M)) htake hrest
    simpa [encode, Instr.operand, operandWidth] using hlong
  | dec cw =>
    have hlong := decode_encode_append (M := M) (i := .dec (cw.take (codeLength M))) htake hrest
    simpa [encode, Instr.operand, operandWidth] using hlong

/-- R83: the operand stands in the request word from bit 1 up, bit for bit. -/
theorem bitAt_encode_succ (i : Instr) (t : Nat) : bitAt (encode i) (t + 1) = bitAt i.operand t := by
  cases i <;> rfl

/-- R81, R82, R85: the one outcome of every operand width, for either format, whose requests `request` builds. -/
theorem decode_encode_by_width (M : Nat) (request : BitSeq → Instr) (x : BitSeq) (hx : (request x).operand = x) :
    if x.length < operandWidth M (request x) then decode M (encode (request x)) = .error .tooShort
    else if operandWidth M (request x) < x.length then decode M (encode (request x)) = .error .tooLong
    else ∃ y, decode M (encode (request x)) = .ok (request y) ∧ y.length = operandWidth M (request x) ∧
      ∀ t < operandWidth M (request x), bitAt y t = bitAt (encode (request x)) (t + 1) := by
  split_ifs with hshort hlong
  · exact decode_encode_of_lt (by rwa [hx])
  · exact decode_encode_of_gt (by rwa [hx])
  · have hwidth : x.length = operandWidth M (request x) := by omega
    have hwf : WellFormed M (request x) := by rwa [WellFormed, hx]
    exact ⟨x, decode_encode hwf, hwidth, fun t _ => by rw [bitAt_encode_succ, hx]⟩

/-- Settles O1: both directions are the characterisation of the words that decode. -/
theorem decodeEncodeAgree : Obligations.DecodeEncodeAgree := by
  refine fun M => ⟨fun i hi => decode_encode hi, fun w i hd => ?_⟩
  obtain ⟨hwf, hw⟩ := decode_eq_ok_iff.mp hd
  exact ⟨hwf, hw.symm⟩

/-- Settles O2: `false :: x` is the word of `.enc x` and `true :: x` the word of `.dec x`, so the operand's width decides. -/
theorem requestWordFields : Obligations.RequestWordFields := by
  refine ⟨fun _ => rfl, fun M x => ?_, fun M x => ?_, by decide, by decide⟩
  · exact decode_encode_by_width M .enc x rfl
  · exact decode_encode_by_width M .dec x rfl

/-- Settles O3: the decoder is run on each word. -/
theorem specRequestWordsDecode : Obligations.SpecRequestWordsDecode := by
  unfold Obligations.SpecRequestWordsDecode
  decide

/-! ### Refusal of another width (R85, R156, U4) -/

theorem portOperand_of_length_ne {s : State} {width : Nat} {x : BitSeq} (ha : Admitted s.messageLength)
    (hx : x.length ≠ width) : portOperand s width x = .error .operandWidth := by
  rw [portOperand, if_neg (not_not.mpr ha), if_neg hx]

theorem exec_of_not_wellFormed {s : State} {i : Instr} (ha : Admitted s.messageLength)
    (hi : ¬ WellFormed s.messageLength i) : exec i s = .refused .operandWidth := by
  cases i with
  | enc msg => exact execEnc_of_messageOperand_error (portOperand_of_length_ne ha hi)
  | dec cw => exact execDec_of_codewordOperand_error (portOperand_of_length_ne ha hi)

theorem issueRequest_of_decode_error {s : State} {w : BitSeq} {why : DecodeReject}
    (h : decode s.messageLength w = .error why) : issueRequest w s = .refused (.notARequest why) := by
  simp [issueRequest, h]

/-- Settles O44: each operation tests the width when it takes its operand from the port, and the host's request is decoded before
any operation runs. -/
theorem wrongWidthRefused : Obligations.WrongWidthRefused := by
  refine fun s ha => ⟨fun i hi => exec_of_not_wellFormed ha hi, fun w rest why hp hd => ?_⟩
  exact (step_cons ha hp).trans (issueRequest_of_decode_error hd)

end Sys2Proof.Machine
end

section
/-! PROOFS. The helper functions (spec/40_helpers.md R100 to R106, R108): each integer helper by the order relation that fixes its
value, each extraction as a list of the received word's bits. -/

namespace Sys2Proof.Machine

/-! ### Powers of two (R100) -/

/-- Settles O12: `isPowerOfTwo_iff`, and the rule's corner cases and examples. -/
theorem powerOfTwoHelper : Obligations.PowerOfTwoHelper :=
  ⟨fun _ => isPowerOfTwo_iff, by decide⟩

/-! ### Bytes (R101, R102) -/

theorem minimumBytes_le_iff {b k : Nat} : minimumBytes b ≤ k ↔ b ≤ 8 * k := by
  unfold minimumBytes
  split_ifs with hwhole
  · omega
  · omega

/-- Settles O13: the floor is the library's division, the ceiling is `minimumBytes_le_iff`. -/
theorem byteHelpers : Obligations.ByteHelpers := by
  refine ⟨fun b => ⟨Nat.mul_div_le b 8, Nat.lt_mul_div_succ b (by decide)⟩, fun b => ⟨?_, fun k hk => ?_⟩, by decide, by decide⟩
  · exact minimumBytes_le_iff.mp le_rfl
  · exact minimumBytes_le_iff.mpr hk

/-! ### Concatenation (R103, D12) -/

theorem concat_of_isZero {a : BitSeq} (h : isZero a = true) (b : BitSeq) : concat a b = b := if_pos h

theorem concat_of_not_isZero {a : BitSeq} (h : isZero a = false) (b : BitSeq) : concat a b = a ++ b := by
  rw [concat, h, if_neg Bool.false_ne_true]

theorem bitAt_append_of_lt {a : BitSeq} {t : Nat} (b : BitSeq) (h : t < a.length) : bitAt (a ++ b) t = bitAt a t :=
  List.getD_append a b false t h

theorem bitAt_append_length_add (a b : BitSeq) (t : Nat) : bitAt (a ++ b) (a.length + t) = bitAt b t := by
  rw [bitAt, List.getD_append_right _ _ _ _ (Nat.le_add_right _ _), Nat.add_sub_cancel_left, bitAt]

/-- Settles O14: an `a` with a set bit is followed by `b`, so the bits of the result are those of an append. -/
theorem concatDropsZeroPrefix : Obligations.ConcatDropsZeroPrefix := by
  refine ⟨fun a b h => concat_of_isZero h b, fun a b h => ?_, by decide⟩
  rw [concat_of_not_isZero h]
  exact ⟨List.length_append, fun _ ht => bitAt_append_of_lt b ht, fun t _ => bitAt_append_length_add a b t⟩

/-! ### The number of check bits (R104, R108) -/

/-- R104: the defining property of the least `K`, which fixes its value and makes it non-decreasing. -/
theorem minimumCheckBits_le_iff {n k : Nat} : minimumCheckBits n ≤ k ↔ n ≤ 2 ^ k - 1 :=
  checkCount_le_iff.trans (Nat.le_sub_one_iff_lt (Nat.two_pow_pos k)).symm

theorem minimumCheckBits_eq_log2 {n : Nat} (hn : 1 ≤ n) : minimumCheckBits n = Nat.log2 n + 1 :=
  eq_of_forall_ge_iff fun k => by
    rw [minimumCheckBits_le_iff, Nat.le_sub_one_iff_lt (Nat.two_pow_pos k), ← Nat.log2_lt (by omega), Nat.succ_le_iff]

theorem minimumCheckBits_mono {m n : Nat} (h : m ≤ n) : minimumCheckBits m ≤ minimumCheckBits n :=
  minimumCheckBits_le_iff.mpr (h.trans (minimumCheckBits_le_iff.mp le_rfl))

/-- Settles O15: each clause follows from `minimumCheckBits_le_iff`. -/
theorem minimumCheckBitsLeast : Obligations.MinimumCheckBitsLeast := by
  refine ⟨fun n => ⟨?_, fun k hk => ?_⟩, fun _ hn => minimumCheckBits_eq_log2 hn, fun _ _ h => minimumCheckBits_mono h, ?_⟩
  · exact minimumCheckBits_le_iff.mp le_rfl
  · exact minimumCheckBits_le_iff.mpr hk
  · exact Nat.le_zero.mp (minimumCheckBits_le_iff.mpr (Nat.zero_le _))

/-! ### Extraction (R105, R106) -/

theorem extractCheckBits_of_admitted {M : Nat} {cw : BitSeq} (ha : Admitted M) (hcw : cw.length = codeLength M) :
    extractCheckBits cw M = .ok ((List.range (minimumCheckBits M)).map fun t => bitAt cw (2 ^ t)) := by
  have hpos : checkPositions cw.length = (List.range (minimumCheckBits M)).map (2 ^ ·) := hcw ▸ checkPositions_of_admitted ha
  rw [extractCheckBits_eq (by rw [hpos, List.length_map, List.length_range]), hpos, List.map_map]
  rfl

theorem extractMessageBits_of_admitted {M : Nat} {cw : BitSeq} (ha : Admitted M) (hcw : cw.length = codeLength M) :
    extractMessageBits cw M = .ok ((List.range M).map fun t => bitAt cw (slot t)) := by
  have hcount : (messagePositions cw.length).length = M := hcw ▸ length_messagePositions_of_admitted ha
  rw [extractMessageBits_eq hcount, messagePositions_eq_map_slot, hcount, List.map_map]
  rfl

/-- An extraction in closed form, read as R105 and R106 state one: it succeeds, and bit `t` of its result is `f t`. -/
theorem exists_bits_of_eq_ok {x : Except Fault BitSeq} {n : Nat} {f : Nat → Bool} (h : x = .ok ((List.range n).map f)) :
    ∃ r, x = .ok r ∧ r.length = n ∧ ∀ t < n, bitAt r t = f t :=
  ⟨_, h, by rw [List.length_map, List.length_range], fun _ ht => bitAt_map_range f ht⟩

/-- Settles O16: the check positions below `N` are the powers of two `2^t` with `t < K`. -/
theorem extractCheckBitsReads : Obligations.ExtractCheckBitsReads :=
  ⟨fun _ _ ha hcw => exists_bits_of_eq_ok (extractCheckBits_of_admitted ha hcw), by decide⟩

/-- Settles O17: the message positions below `N` are the slots of the `M` message bits. -/
theorem extractMessageBitsReads : Obligations.ExtractMessageBitsReads :=
  ⟨fun _ _ ha hcw => exists_bits_of_eq_ok (extractMessageBits_of_admitted ha hcw), by decide⟩

end Sys2Proof.Machine
end

section
/-! PROOFS. What `ENC` leaves in its latch (spec/41_encoder.md R130 to R137): a codeword is determined by its message bits, so the
encoder's result is the one codeword of its message, the all-zero word for the all-zero message. -/

namespace Sys2Proof.Machine

/-! ### The check positions, in any order (R133) -/

theorem ascendingChecks_eq_checkPositions {M : Nat} (ha : Admitted M) :
    ascendingChecks (checkCount M) = checkPositions (codeLength M) := (checkPositions_of_admitted ha).symm

theorem exists_chk_of_role {M p : Nat} (ha : Admitted M) (hp : p < codeLength M) (hr : role p = .check) :
    ∃ t < checkCount M, chk t = p :=
  mem_ascendingChecks.mp (by simp [ascendingChecks_eq_checkPositions ha, checkPositions, hp, hr])

/-- R133: the closed form of the check bits does not depend on the order in which they are computed. -/
theorem checksInOrder_of_perm {M : Nat} {w : BitSeq} {order : List Nat} (hw : w.length = codeLength M)
    (hperm : order.Perm (ascendingChecks (checkCount M))) :
    checksInOrder (codeLength M) order w = .ok ((List.range (codeLength M)).map fun p =>
      if p ∈ ascendingChecks (checkCount M) then (bitAt w p ^^ xorOver w (group (codeLength M) p)) else bitAt w p) := by
  have hchk : ∀ i ∈ order, ∃ t < checkCount M, chk t = i := fun i hi => mem_ascendingChecks.mp (hperm.mem_iff.mp hi)
  have hlt : ∀ i ∈ order, i < codeLength M := fun i hi => by
    obtain ⟨t, ht, rfl⟩ := hchk i hi
    exact chk_lt_codeLength ht
  have hsep : ∀ i ∈ order, ∀ j ∈ order, inGroup i j = false := fun i hi j hj => by
    obtain ⟨t, -, rfl⟩ := hchk i hi
    obtain ⟨u, -, rfl⟩ := hchk j hj
    exact inGroup_chk_chk t u
  have hnodup : order.Nodup := hperm.nodup_iff.mpr (nodup_ascendingChecks _)
  simp only [checksInOrder_eq order w hw hlt hnodup hsep, hperm.mem_iff]

/-- Settles O20: the ascending order is one permutation of itself, so both runs have the same closed form. -/
theorem checkOrderUnobservable : Obligations.CheckOrderUnobservable :=
  fun _ ha => ⟨ascendingChecks_eq_checkPositions ha, fun _ _ hw hperm =>
    ⟨_, checksInOrder_of_perm hw (List.Perm.refl _), checksInOrder_of_perm hw hperm⟩⟩

/-! ### A codeword is determined by its message bits (R136, R137) -/

theorem bitAt_drop (w : BitSeq) (k p : Nat) : bitAt (w.drop k) p = bitAt w (k + p) := by simp [bitAt]

/-- The message bits fix every check bit, because groups hold message positions only, and all of these fix the global parity. -/
theorem codeword_ext {M : Nat} {v w : BitSeq} (ha : Admitted M) (hv : isCodeword M v = true) (hw : isCodeword M w = true)
    (h : (messagePositions (codeLength M)).map (bitAt v) = (messagePositions (codeLength M)).map (bitAt w)) : v = w := by
  obtain ⟨hvlen, hvchk, hvparity⟩ := isCodeword_iff.mp hv
  obtain ⟨hwlen, hwchk, hwparity⟩ := isCodeword_iff.mp hw
  have hmessage : ∀ p < codeLength M, role p = .message → bitAt v p = bitAt w p := fun p hp hr =>
    List.map_inj_left.mp h p (mem_messagePositions.mpr ⟨hp, hr⟩)
  have hcheck : ∀ t < checkCount M, bitAt v (chk t) = bitAt w (chk t) := fun t ht => by
    rw [hvchk t ht, hwchk t ht]
    exact xorOver_congr fun p hp => hmessage p (mem_group.mp hp).1 (role_of_mem_group_chk hp)
  have hpositive : ∀ p < codeLength M, p ≠ 0 → bitAt v p = bitAt w p := fun p hp h0 => by
    cases hr : role p with
    | globalParity => exact absurd (role_eq_globalParity_iff.mp hr) h0
    | message => exact hmessage p hp hr
    | check =>
      obtain ⟨t, ht, rfl⟩ := exists_chk_of_role ha hp hr
      exact hcheck t ht
  have hdrop : v.drop 1 = w.drop 1 := by
    refine bitSeq_ext (by simp [hvlen, hwlen]) fun p hp => ?_
    rw [List.length_drop, hvlen] at hp
    rw [bitAt_drop, bitAt_drop, hpositive _ (by omega) (by omega)]
  refine bitSeq_ext (hvlen.trans hwlen.symm) fun p hp => ?_
  by_cases h0 : p = 0
  · rw [h0, hvparity, hwparity, hdrop]
  · exact hpositive p (hvlen ▸ hp) h0

/-- R137: the encoder's result is the only codeword with the message at the message positions. -/
theorem encodedWord_eq_of_isCodeword {M : Nat} {m w : BitSeq} (ha : Admitted M) (hm : m.length = M)
    (hw : isCodeword M w = true) (hbits : (messagePositions (codeLength M)).map (bitAt w) = m) : encodedWord M m = w :=
  codeword_ext ha (isCodeword_encodedWord M m) hw ((map_encodedWord_messagePositions ha hm).trans hbits.symm)

/-- R131: the normal path on the all-zero message gives the all-zero word. -/
theorem encodedWord_of_isZero {M : Nat} {m : BitSeq} (ha : Admitted M) (hm : m.length = M) (h : isZero m = true) :
    encodedWord M m = zeros (codeLength M) := by
  refine encodedWord_eq_of_isCodeword ha hm (isCodeword_zeros M) ?_
  have hzero : ∀ p ∈ messagePositions (codeLength M), bitAt (zeros (codeLength M)) p = false := fun p _ => bitAt_zeros _ p
  rw [List.map_congr_left hzero, List.map_const', length_messagePositions_of_admitted ha, eq_zeros_of_isZero h, hm, zeros]

theorem messagePositions_of_admitted {M : Nat} (ha : Admitted M) :
    messagePositions (codeLength M) = (List.range M).map slot := slotEnumeratesMessagePositions.1 M ha

/-- R132: the bits of the encoded word at the slots are the message. -/
theorem bitAt_encodedWord_slot {M t : Nat} {m : BitSeq} (ha : Admitted M) (hm : m.length = M) (ht : t < M) :
    bitAt (encodedWord M m) (slot t) = bitAt m t := by
  have hbits : (List.range M).map (fun u => bitAt (encodedWord M m) (slot u)) = m := by
    have hmap := map_encodedWord_messagePositions ha hm
    rwa [messagePositions_of_admitted ha, List.map_map] at hmap
  exact (bitAt_map_range (fun u => bitAt (encodedWord M m) (slot u)) ht).symm.trans (congrArg (bitAt · t) hbits)

/-! ### The two paths of the encoder (R130, R131) -/

theorem encodeMessage_of_isZero {M : Nat} {m : BitSeq} (h : isZero m = true) : encodeMessage M m = .ok m := if_pos h

theorem encodeMessage_of_not_isZero {M : Nat} {m : BitSeq} (ha : Admitted M) (hm : m.length = M) (h : isZero m = false) :
    encodeMessage M m = .ok (encodedWord M m) := by
  rw [encodeMessage, h, if_neg Bool.false_ne_true, encodeNormal_eq ha hm]

theorem zext_of_isZero {M : Nat} {m : BitSeq} (hm : m.length = M) (h : isZero m = true) :
    zext (codeLength M) m = zeros (codeLength M) := by
  have heq := eq_zeros_of_isZero ((isZero_zext (codeLength M) m).trans h)
  rwa [length_zext (hm ▸ le_codeLength M)] at heq

/-- Settles O18: the normal path completes with `encodedWord`, whose bits are known role by role. -/
theorem encWritesCodeword : Obligations.EncWritesCodeword := by
  intro s m ha hm hnonzero
  refine ⟨encodedWord s.messageLength m, ?_, length_encodedWord _ m, fun _ ht => bitAt_encodedWord_slot ha hm ht,
    fun _ ht => bitAt_encodedWord_chk m ht, bitAt_encodedWord_zero_eq_parity_drop _ m⟩
  have hlen := length_encodedWord s.messageLength m
  have hexec := execEnc_of_encodeMessage ha hm (encodeMessage_of_not_isZero ha hm hnonzero)
  rwa [writeEncRes, hlen, zext_of_length hlen] at hexec

/-- Settles O19: the fast path returns the message itself, and the normal path has the all-zero codeword. -/
theorem encZeroFastPath : Obligations.EncZeroFastPath := by
  intro s m ha hm hzero
  refine ⟨encodeMessage_of_isZero hzero, ?_, ?_⟩
  · rw [encodeNormal_eq ha hm, encodedWord_of_isZero ha hm hzero]
  · have hexec := execEnc_of_encodeMessage ha hm (encodeMessage_of_isZero hzero)
    rwa [writeEncRes, hm, zext_of_isZero hm hzero] at hexec

/-- R130, R131: on both paths `ENC_RES.data` is the codeword of the message. -/
theorem exec_enc_data {s : State} {m : BitSeq} (ha : Admitted s.messageLength) (hm : m.length = s.messageLength) :
    ∃ t, exec (.enc m) s = .next t ∧ t.encRes.data = some (encodedWord s.messageLength m) := by
  cases hzero : isZero m with
  | true => exact ⟨_, (encZeroFastPath s m ha hm hzero).2.2, by rw [encodedWord_of_isZero ha hm hzero]⟩
  | false =>
    refine ⟨_, execEnc_of_encodeMessage ha hm (encodeMessage_of_not_isZero ha hm hzero), ?_⟩
    rw [writeEncRes_encRes, zext_of_length (length_encodedWord _ m)]

/-! ### Linearity (R137) -/

theorem parity_xorSeq {a b : BitSeq} (h : a.length = b.length) : parity (xorSeq a b) = (parity a ^^ parity b) := by
  rw [parity_eq_xorOver, parity_eq_xorOver a, parity_eq_xorOver b, length_xorSeq, ← h, Nat.min_self, xorOver_xorSeq h]

theorem drop_xorSeq (a b : BitSeq) (k : Nat) : (xorSeq a b).drop k = xorSeq (a.drop k) (b.drop k) := List.drop_zipWith

theorem isCodeword_xorSeq {M : Nat} {v w : BitSeq} (hv : isCodeword M v = true) (hw : isCodeword M w = true) :
    isCodeword M (xorSeq v w) = true := by
  obtain ⟨hvlen, hvchk, hvparity⟩ := isCodeword_iff.mp hv
  obtain ⟨hwlen, hwchk, hwparity⟩ := isCodeword_iff.mp hw
  have hlen : v.length = w.length := hvlen.trans hwlen.symm
  refine isCodeword_iff.mpr ⟨by simp [hvlen, hwlen], fun t ht => ?_, ?_⟩
  · rw [bitAt_xorSeq hlen, xorOver_xorSeq hlen, hvchk t ht, hwchk t ht]
  · rw [bitAt_xorSeq hlen, drop_xorSeq, parity_xorSeq (by simp [hlen]), hvparity, hwparity]

theorem map_bitAt_xorSeq {a b : BitSeq} (h : a.length = b.length) (ps : List Nat) :
    ps.map (bitAt (xorSeq a b)) = xorSeq (ps.map (bitAt a)) (ps.map (bitAt b)) := by
  rw [xorSeq, xorSeq, List.zipWith_map, List.zipWith_self]
  exact List.map_congr_left fun p _ => bitAt_xorSeq h p

/-- The sum of two codewords is a codeword, and its message bits are the sum of the messages. -/
theorem encodedWord_xorSeq {M : Nat} {a b : BitSeq} (ha : Admitted M) (hla : a.length = M) (hlb : b.length = M) :
    encodedWord M (xorSeq a b) = xorSeq (encodedWord M a) (encodedWord M b) := by
  refine encodedWord_eq_of_isCodeword ha (by simp [hla, hlb])
    (isCodeword_xorSeq (isCodeword_encodedWord M a) (isCodeword_encodedWord M b)) ?_
  rw [map_bitAt_xorSeq (by simp), map_encodedWord_messagePositions ha hla, map_encodedWord_messagePositions ha hlb]

theorem extractMessageBits_encodedWord {M : Nat} {m : BitSeq} (ha : Admitted M) (hm : m.length = M) :
    extractMessageBits (encodedWord M m) M = .ok m := by
  have hlen := length_encodedWord M m
  rw [extractMessageBits_eq (hlen ▸ length_messagePositions_of_admitted ha), hlen, map_encodedWord_messagePositions ha hm]

/-- Settles O22: extraction inverts `encodedWord`, which makes it injective; linearity is `encodedWord_xorSeq`. -/
theorem encLinearInjective : Obligations.EncLinearInjective := by
  intro s a b ha hla hlb
  obtain ⟨t, ht, hc⟩ := exec_enc_data ha hla
  obtain ⟨u, hu, hd⟩ := exec_enc_data ha hlb
  obtain ⟨v, hv, he⟩ := exec_enc_data ha (show (xorSeq a b).length = s.messageLength by simp [hla, hlb])
  refine ⟨t, u, v, _, _, _, ht, hc, hu, hd, hv, he, extractMessageBits_encodedWord ha hla,
    (encodedWord_xorSeq ha hla hlb).symm, fun heq => ?_⟩
  have hextract := extractMessageBits_encodedWord ha hla
  rw [heq, extractMessageBits_encodedWord ha hlb] at hextract
  exact (Except.ok.inj hextract).symm

end Sys2Proof.Machine
end

section
/-! PROOFS. Codewords by the exclusive or of their indices (spec/41_encoder.md R136), and the weights that follow from it
(R138). -/

namespace Sys2Proof.Machine

/-! ### The index exclusive-or, digit by digit (R136) -/

/-- Digit `t` of the exclusive or of the positions in `ps` that hold a 1 counts those with digit `t` set, modulo 2. -/
theorem testBit_foldr_xor_filter (w : BitSeq) (ps : List Nat) (t : Nat) :
    ((ps.filter (bitAt w)).foldr (· ^^^ ·) 0).testBit t = xorOver w (ps.filter (·.testBit t)) := by
  induction ps with
  | nil => simp [xorOver]
  | cons p ps ih =>
    cases hb : bitAt w p <;> cases hp : p.testBit t <;> simp [hb, hp, ih, xorOver]

theorem testBit_indexXor (w : BitSeq) (t : Nat) :
    (indexXor w).testBit t = xorOver w ((List.range w.length).filter (·.testBit t)) :=
  testBit_foldr_xor_filter w _ t

/-- The positions with digit `t` set are the check position `2^t` and its group (R70). -/
theorem testBit_indexXor_eq_chk_xor_group {w : BitSeq} {n t : Nat} (hw : w.length = n) (ht : chk t < n) :
    (indexXor w).testBit t = (bitAt w (chk t) ^^ xorOver w (group n (chk t))) := by
  have hsplit : ∀ p ∈ List.range n, p.testBit t = ((p == chk t) ^^ inGroup (chk t) p) := fun p _ => by
    by_cases hp : p = chk t
    · rw [hp, inGroup_chk_chk, chk, Nat.testBit_two_pow_self, beq_self_eq_true, Bool.xor_false]
    · rw [Bool.eq_iff_iff.mpr (inGroup_chk_iff.trans (and_iff_right hp)), beq_false_of_ne hp, Bool.false_xor]
  rw [testBit_indexXor, hw, xorOver_filter_xor w _ _ _ _ hsplit, xorOver_range_eq w ht, group]

/-- Every index stays below `2^K`, so its digits from `K` on are 0. -/
theorem testBit_indexXor_of_checkCount_le {M t : Nat} {w : BitSeq} (ha : Admitted M) (hw : w.length = codeLength M)
    (ht : checkCount M ≤ t) : (indexXor w).testBit t = false := by
  have hempty : (List.range w.length).filter (·.testBit t) = [] := by
    refine List.filter_eq_nil_iff.mpr fun p hp => ?_
    have hlt : p < 2 ^ t := (hw ▸ List.mem_range.mp hp).trans_le (ha.2.trans (Nat.pow_le_pow_right two_pos ht))
    simp [Nat.testBit_lt_two_pow hlt]
  rw [testBit_indexXor, hempty, xorOver]

/-- The parity equations of the `K` check bits say that each digit of the index exclusive-or is 0. -/
theorem indexXor_eq_zero_iff {M : Nat} {w : BitSeq} (ha : Admitted M) (hw : w.length = codeLength M) :
    indexXor w = 0 ↔ ∀ t < checkCount M, bitAt w (chk t) = xorOver w (group (codeLength M) (chk t)) := by
  have hdigit : ∀ t < checkCount M,
      ((indexXor w).testBit t = false ↔ bitAt w (chk t) = xorOver w (group (codeLength M) (chk t))) := fun t ht => by
    rw [testBit_indexXor_eq_chk_xor_group hw (chk_lt_codeLength ht), bne_eq_false_iff_eq]
  constructor
  · intro h t ht
    exact (hdigit t ht).mp (by rw [h, Nat.zero_testBit])
  · intro h
    refine Nat.eq_of_testBit_eq fun t => ?_
    rw [Nat.zero_testBit]
    obtain ht | ht := lt_or_ge t (checkCount M)
    · exact (hdigit t ht).mpr (h t ht)
    · exact testBit_indexXor_of_checkCount_le ha hw ht

/-! ### Even weight (R136) -/

theorem parity_eq_false_iff {w : BitSeq} : parity w = false ↔ popcount w % 2 = 0 := by simp [parity]

/-- `G` is the parity of the other bits exactly when the whole word has even weight. -/
theorem globalParity_iff_even {w : BitSeq} (h : 0 < w.length) :
    bitAt w 0 = parity (w.drop 1) ↔ popcount w % 2 = 0 := by
  rw [← parity_eq_false_iff, parity_eq_first_xor h, bne_eq_false_iff_eq]

theorem isCodeword_iff_indexXor {M : Nat} {w : BitSeq} (ha : Admitted M) (hw : w.length = codeLength M) :
    isCodeword M w = true ↔ indexXor w = 0 ∧ popcount w % 2 = 0 := by
  rw [isCodeword_iff, indexXor_eq_zero_iff ha hw, globalParity_iff_even (hw ▸ codeLength_pos M), and_iff_right hw]

/-- Settles O21: the parity equations digit by digit, and `ENC_RES.data` is `encodedWord` on both paths. -/
theorem codewordsByIndexXor : Obligations.CodewordsByIndexXor := by
  refine ⟨fun M w ha hw => isCodeword_iff_indexXor ha hw, fun s m ha hm => ?_⟩
  obtain ⟨t, hexec, hdata⟩ := exec_enc_data ha hm
  exact ⟨t, _, hexec, hdata, isCodeword_encodedWord _ m⟩

/-! ### The least weight of a codeword (R138) -/

theorem popcount_eq_countP_range (w : BitSeq) : popcount w = (List.range w.length).countP (bitAt w) := by
  conv_lhs => rw [eq_map_range w, popcount, List.countP_map]
  rfl

theorem length_setPositions (w : BitSeq) : (setPositions w).length = popcount w := by
  rw [popcount_eq_countP_range, List.countP_eq_length_filter, setPositions]

theorem popcount_eq_zero_iff {w : BitSeq} : popcount w = 0 ↔ isZero w = true := by simp [popcount, isZero]

/-- Two different indices have a nonzero exclusive or, so no codeword has exactly two set bits. -/
theorem popcount_ne_two_of_indexXor {w : BitSeq} (h : indexXor w = 0) : popcount w ≠ 2 := by
  intro htwo
  obtain ⟨p, q, hpq⟩ := List.length_eq_two.mp ((length_setPositions w).trans htwo)
  have hnodup : (setPositions w).Nodup := List.nodup_range.filter _
  have hxor : p ^^^ q = 0 := by simpa [indexXor, hpq] using h
  simp [hpq, Nat.xor_eq_zero_iff.mp hxor] at hnodup

theorem four_le_popcount_of_isCodeword {M : Nat} {w : BitSeq} (ha : Admitted M) (hw : isCodeword M w = true)
    (hnonzero : isZero w = false) : 4 ≤ popcount w := by
  obtain ⟨hxor, heven⟩ := (isCodeword_iff_indexXor ha (isCodeword_iff.mp hw).1).mp hw
  have hne0 : popcount w ≠ 0 := fun h => by rw [popcount_eq_zero_iff.mp h] at hnonzero; cases hnonzero
  have hne2 := popcount_ne_two_of_indexXor hxor
  omega

/-! ### The weight by roles (R62) -/

theorem checkPositions_succ (n : Nat) :
    checkPositions (n + 1) = checkPositions n ++ if role n = .check then [n] else [] := by
  simp [checkPositions, filter_range_succ]

/-- The set positions split into position 0, the check positions and the message positions. -/
theorem countP_range_succ_by_role (f : Nat → Bool) (n : Nat) :
    (List.range (n + 1)).countP f
      = (f 0).toNat + (checkPositions (n + 1)).countP f + (messagePositions (n + 1)).countP f := by
  induction n with
  | zero => cases hf : f 0 <;> simp [checkPositions, messagePositions, role, hf]
  | succ n ih =>
    rw [List.range_succ, List.countP_append, ih, checkPositions_succ (n + 1), messagePositions_succ (n + 1),
      List.countP_append, List.countP_append]
    cases hr : role (n + 1) with
    | globalParity => exact absurd (role_eq_globalParity_iff.mp hr) n.succ_ne_zero
    | check => rw [if_pos rfl, if_neg (by decide), List.countP_nil]; omega
    | message => rw [if_neg (by decide), if_pos rfl, List.countP_nil]; omega

/-- The weight of the encoded word: `G`, the check bits, and the weight of the message. -/
theorem popcount_encodedWord {M : Nat} {m : BitSeq} (ha : Admitted M) (hm : m.length = M) :
    popcount (encodedWord M m) = (bitAt (encodedWord M m) 0).toNat
      + (List.range (checkCount M)).countP (fun i => bitAt (encodedWord M m) (chk i)) + popcount m := by
  have hmessage : (messagePositions (codeLength M)).countP (bitAt (encodedWord M m)) = popcount m := by
    conv_rhs => rw [← map_encodedWord_messagePositions ha hm, popcount, List.countP_map]
    rfl
  have hcheck : (checkPositions (codeLength M)).countP (bitAt (encodedWord M m))
      = (List.range (checkCount M)).countP (fun i => bitAt (encodedWord M m) (chk i)) := by
    rw [checkPositions_of_admitted ha, List.countP_map]; rfl
  rw [popcount_eq_countP_range, length_encodedWord, ← hmessage, ← hcheck]
  exact countP_range_succ_by_role _ (checkCount M + M)

/-! ### One-bit messages (R138) -/

theorem slot_injective : Function.Injective slot :=
  Function.LeftInverse.injective (g := fun p => (messagePositions p).length) length_messagePositions_slot

/-- R63: the message positions below `N` are the slots of the `M` message bits. -/
theorem exists_slot_iff {M p : Nat} (ha : Admitted M) : (∃ t < M, slot t = p) ↔ p < codeLength M ∧ role p = .message := by
  rw [← mem_messagePositions, messagePositions_of_admitted ha]
  simp

theorem slot_lt_codeLength {M t : Nat} (ha : Admitted M) (ht : t < M) : slot t < codeLength M :=
  ((exists_slot_iff ha).mp ⟨t, ht, rfl⟩).1

theorem bitAt_flipAt_zeros {n t : Nat} (ht : t < n) (p : Nat) : bitAt (flipAt (zeros n) t) p = decide (p = t) := by
  rw [bitAt_flipAt p (by simpa using ht), bitAt_zeros, Bool.false_xor]

theorem popcount_flipAt_zeros {n t : Nat} (ht : t < n) : popcount (flipAt (zeros n) t) = 1 := by
  have hcount : (List.range n).countP (bitAt (flipAt (zeros n) t)) = (List.range n).count t :=
    List.countP_congr fun p _ => by rw [bitAt_flipAt_zeros ht, decide_eq_true_iff, beq_iff_eq]
  rw [popcount_eq_countP_range, length_flipAt, length_zeros, hcount]
  exact List.count_eq_one_of_mem List.nodup_range (List.mem_range.mpr ht)

/-- The parity over positions of which only `q` can hold a 1. -/
theorem xorOver_eq_decide_mem {w : BitSeq} {ps : List Nat} {q : Nat} (hnd : ps.Nodup)
    (h : ∀ p ∈ ps, bitAt w p = decide (p = q)) : xorOver w ps = decide (q ∈ ps) := by
  induction ps with
  | nil => rfl
  | cons p ps ih =>
    obtain ⟨hnot, hnd'⟩ := List.nodup_cons.mp hnd
    rw [xorOver, h p (by simp), ih hnd' fun r hr => h r (by simp [hr])]
    by_cases hpq : p = q
    · subst hpq; simp [hnot]
    · simp [hpq, Ne.symm hpq]

/-- The check bits of a one-bit message are the binary digits of its slot. -/
theorem bitAt_encodedWord_flipAt_zeros_chk {M t i : Nat} (ha : Admitted M) (ht : t < M) (hi : i < checkCount M) :
    bitAt (encodedWord M (flipAt (zeros M) t)) (chk i) = (slot t).testBit i := by
  have hgroup : ∀ p ∈ group (codeLength M) (chk i),
      bitAt (encodedWord M (flipAt (zeros M) t)) p = decide (p = slot t) := fun p hp => by
    obtain ⟨u, hu, rfl⟩ := (exists_slot_iff ha).mpr ⟨(mem_group.mp hp).1, role_of_mem_group_chk hp⟩
    rw [bitAt_encodedWord_slot ha (by simp) hu, bitAt_flipAt_zeros ht, decide_eq_decide.mpr slot_injective.eq_iff]
  have hnodup : (group (codeLength M) (chk i)).Nodup := List.nodup_range.filter _
  rw [bitAt_encodedWord_chk _ hi, xorOver_eq_decide_mem hnodup hgroup, Bool.eq_iff_iff, decide_eq_true_iff]
  exact mem_group_chk_iff_testBit (slot_lt_codeLength ha ht) (role_slot t)

/-- Any bound that the digits stay under counts all of them. -/
theorem countP_testBit_eq_oneDigits {x k : Nat} (h : x < 2 ^ k) : (List.range k).countP x.testBit = oneDigits x := by
  have hperm : ((List.range k).filter x.testBit).Perm ((List.range x).filter x.testBit) := by
    refine (List.perm_ext_iff_of_nodup (List.nodup_range.filter _) (List.nodup_range.filter _)).mpr fun i => ?_
    rw [mem_oneDigits_iff, List.mem_filter, List.mem_range, and_iff_right_iff_imp]
    exact fun hi => (Nat.pow_lt_pow_iff_right one_lt_two).mp ((Nat.ge_two_pow_of_testBit hi).trans_lt h)
  rw [oneDigits, List.countP_eq_length_filter, List.countP_eq_length_filter, hperm.length_eq]

/-- R138: the message bit, the digits of its slot, and `G` to make the weight even. -/
theorem popcount_encodedWord_flipAt_zeros {M t : Nat} (ha : Admitted M) (ht : t < M) :
    popcount (encodedWord M (flipAt (zeros M) t)) = 1 + oneDigits (slot t) + (1 + oneDigits (slot t)) % 2 := by
  have hweight := popcount_encodedWord ha (m := flipAt (zeros M) t) (by simp)
  have hdigits : (List.range (checkCount M)).countP (fun i => bitAt (encodedWord M (flipAt (zeros M) t)) (chk i))
      = oneDigits (slot t) := by
    rw [← countP_testBit_eq_oneDigits ((slot_lt_codeLength ha ht).trans_le ha.2)]
    exact List.countP_congr fun i hi => by rw [bitAt_encodedWord_flipAt_zeros_chk ha ht (List.mem_range.mp hi)]
  have heven := ((isCodeword_iff_indexXor ha (length_encodedWord M _)).mp (isCodeword_encodedWord M (flipAt (zeros M) t))).2
  have hbit := (bitAt (encodedWord M (flipAt (zeros M) t)) 0).toNat_le
  rw [hdigits, popcount_flipAt_zeros ht] at hweight
  omega

/-- Settles O23: the least weight by `isCodeword_iff_indexXor`, the one-bit messages by roles, the rule's two examples. -/
theorem codewordWeights : Obligations.CodewordWeights := by
  refine ⟨fun M w ha hw h => four_le_popcount_of_isCodeword ha hw h, fun M t ha ht => ?_, by decide, by decide⟩
  have hnonzero : isZero (flipAt (zeros M) t) = false := by
    rw [Bool.eq_false_iff, ne_eq, ← popcount_eq_zero_iff, popcount_flipAt_zeros ht]
    exact one_ne_zero
  exact ⟨_, encodeMessage_of_not_isZero ha (by simp) hnonzero, popcount_encodedWord_flipAt_zeros ha ht⟩

end Sys2Proof.Machine
end

section
/-! PROOFS. The index exclusive-or as a function of the word (spec/42_decoder.md R160): it is linear, so the syndrome of a codeword
with an error pattern is that of the pattern, and one flipped bit adds its own index. -/

namespace Sys2Proof.Machine

/-! ### Linearity (R160) -/

theorem indexXor_xorSeq {a b : BitSeq} (h : a.length = b.length) : indexXor (xorSeq a b) = indexXor a ^^^ indexXor b := by
  refine Nat.eq_of_testBit_eq fun t => ?_
  rw [Nat.testBit_xor, testBit_indexXor, testBit_indexXor, testBit_indexXor, length_xorSeq, ← h, Nat.min_self,
    xorOver_xorSeq h]

theorem indexXor_zeros (n : Nat) : indexXor (zeros n) = 0 :=
  Nat.eq_of_testBit_eq fun t => by rw [testBit_indexXor, xorOver_zeros, Nat.zero_testBit]

theorem indexXor_flipAt_zeros {n p : Nat} (hp : p < n) : indexXor (flipAt (zeros n) p) = p := by
  refine Nat.eq_of_testBit_eq fun t => ?_
  rw [testBit_indexXor, length_flipAt, length_zeros,
    xorOver_eq_decide_mem (List.nodup_range.filter _) fun q _ => bitAt_flipAt_zeros hp q]
  simp [hp]

/-- Complementing a position is adding the one-bit error pattern of that position. -/
theorem flipAt_eq_xorSeq {w : BitSeq} {p : Nat} (hp : p < w.length) :
    flipAt w p = xorSeq w (flipAt (zeros w.length) p) :=
  bitSeq_ext (by simp) fun q _ => by
    rw [bitAt_flipAt q hp, bitAt_xorSeq (by simp), bitAt_flipAt_zeros hp]

theorem indexXor_flipAt {w : BitSeq} {p : Nat} (hp : p < w.length) : indexXor (flipAt w p) = indexXor w ^^^ p := by
  rw [flipAt_eq_xorSeq hp, indexXor_xorSeq (by simp), indexXor_flipAt_zeros hp]

/-- Digit `t` of an exclusive or of numbers is the parity of how many of them have it. -/
theorem testBit_foldr_xor (ps : List Nat) (t : Nat) :
    (ps.foldr (· ^^^ ·) 0).testBit t = decide (ps.countP (fun p => p.testBit t) % 2 = 1) := by
  induction ps with
  | nil => simp
  | cons p ps ih =>
    rw [List.foldr_cons, Nat.testBit_xor, ih, List.countP_cons]
    cases p.testBit t with
    | false => simp
    | true =>
      rw [Bool.true_xor, ← decide_not, decide_eq_decide, if_pos rfl]
      omega

/-! ### Words that are not all zero -/

theorem parity_eq_true_iff {w : BitSeq} : parity w = true ↔ popcount w % 2 = 1 := by simp [parity]

theorem not_isZero_of_indexXor_ne_zero {w : BitSeq} (h : indexXor w ≠ 0) : isZero w = false := by
  rw [Bool.eq_false_iff]
  intro hzero
  rw [eq_zeros_of_isZero hzero, indexXor_zeros] at h
  exact h rfl

theorem not_isZero_of_parity {w : BitSeq} (h : parity w = true) : isZero w = false := by
  rw [Bool.eq_false_iff]
  intro hzero
  rw [eq_zeros_of_isZero hzero, parity_zeros] at h
  cases h

end Sys2Proof.Machine
end

section
/-! PROOFS. One `DEC` in closed form (spec/42_decoder.md R150 to R162): the received and the recomputed check bits differ in the
digits of the index exclusive-or, which with the parity of the corrected word fixes the whole record of the call. -/

namespace Sys2Proof.Machine

/-! ### The check bits and the syndrome (R152, R153, R154) -/

theorem receivedChecks_eq {M : Nat} (ha : Admitted M) (c : BitSeq) :
    receivedChecks M c = (List.range (checkCount M)).map fun t => bitAt c (2 ^ t) := by
  rw [receivedChecks, checkPositions_of_admitted ha, List.map_map]
  rfl

theorem length_receivedChecks {M : Nat} (ha : Admitted M) (c : BitSeq) : (receivedChecks M c).length = checkCount M := by
  rw [receivedChecks_eq ha, List.length_map, List.length_range]

@[simp] theorem length_recomputedChecks (M : Nat) (c : BitSeq) : (recomputedChecks M c).length = checkCount M := by
  simp [recomputedChecks]

theorem bitAt_receivedChecks {M t : Nat} (ha : Admitted M) (c : BitSeq) (ht : t < checkCount M) :
    bitAt (receivedChecks M c) t = bitAt c (2 ^ t) := by
  rw [receivedChecks_eq ha, bitAt_map_range _ ht]

theorem bitAt_recomputedChecks {M t : Nat} (c : BitSeq) (ht : t < checkCount M) :
    bitAt (recomputedChecks M c) t = xorOver c (group (codeLength M) (2 ^ t)) := bitAt_map_range _ ht

/-- R160: digit `t` of both is the parity of the set positions with digit `t`: the check position `2^t` and its group. -/
theorem syndromeOf_checks {M : Nat} {c : BitSeq} (ha : Admitted M) (hc : c.length = codeLength M) :
    syndromeOf (recomputedChecks M c) (receivedChecks M c) = indexXor c := by
  have hlen := length_receivedChecks ha c
  refine Nat.eq_of_testBit_eq fun t => ?_
  rw [testBit_syndromeOf (by simp [hlen])]
  obtain ht | ht := lt_or_ge t (checkCount M)
  · rw [bitAt_recomputedChecks c ht, bitAt_receivedChecks ha c ht,
      testBit_indexXor_eq_chk_xor_group hc (chk_lt_codeLength ht), Bool.xor_comm, chk]
  · rw [bitAt_of_le (by simpa using ht), bitAt_of_le (by rwa [hlen]), testBit_indexXor_of_checkCount_le ha hc ht,
      Bool.xor_false]

/-! ### The record of a call -/

/-- R159: the bits of `w` at the message positions. -/
def messageBits (M : Nat) (w : BitSeq) : BitSeq := (List.range M).map fun t => bitAt w (slot t)

theorem messageBits_eq {M : Nat} {w : BitSeq} (ha : Admitted M) (hw : w.length = codeLength M) :
    messageBits M w = (messagePositions w.length).map (bitAt w) := by
  rw [hw, messagePositions_of_admitted ha, List.map_map]
  rfl

@[simp] theorem length_messageBits (M : Nat) (w : BitSeq) : (messageBits M w).length = M := by simp [messageBits]

/-- R155: the working copy after the correction, for a syndrome that names a position or is 0. -/
def correctedWord (c : BitSeq) : BitSeq := if indexXor c = 0 then c else flipAt c (indexXor c)

@[simp] theorem length_correctedWord (c : BitSeq) : (correctedWord c).length = c.length := by
  unfold correctedWord
  split
  · rfl
  · exact length_flipAt _ _

/-- R155, R158, R159: what the normal path returns. -/
def normalResult (M : Nat) (c : BitSeq) : DecodeResult :=
  if codeLength M ≤ indexXor c then .err .syndromeOutOfRange
  else if parity (correctedWord c) then .err .globalParityMismatch
  else .ok (messageBits M (correctedWord c))

theorem normalResult_of_range {M : Nat} {c : BitSeq} (h : codeLength M ≤ indexXor c) :
    normalResult M c = .err .syndromeOutOfRange := if_pos h

theorem normalResult_of_odd {M : Nat} {c : BitSeq} (h : indexXor c < codeLength M)
    (hparity : parity (correctedWord c) = true) : normalResult M c = .err .globalParityMismatch := by
  rw [normalResult, if_neg h.not_ge, if_pos hparity]

theorem normalResult_of_even {M : Nat} {c : BitSeq} (h : indexXor c < codeLength M)
    (hparity : parity (correctedWord c) = false) : normalResult M c = .ok (messageBits M (correctedWord c)) := by
  rw [normalResult, if_neg h.not_ge, hparity, if_neg Bool.false_ne_true]

/-- R162: the states the normal path goes through. -/
def normalFsm (M : Nat) (c : BitSeq) : List FsmState :=
  if codeLength M ≤ indexXor c then [.start, .extractChecks, .recomputeSyndrome, .uncorrectableRange]
  else [.start, .extractChecks, .recomputeSyndrome, if indexXor c = 0 then .noError else .correctableSingleBit,
    .globalParityCheck, if parity (correctedWord c) then .uncorrectableParityMismatch else .success]

/-- R38: the record that the normal path leaves. -/
def normalCall (M : Nat) (c : BitSeq) : DecodeCall where
  fsm := normalFsm M c
  orig := some (receivedChecks M c)
  prime := some (recomputedChecks M c)
  syndrome := some (indexXor c)
  working := if codeLength M ≤ indexXor c then none else some (correctedWord c)
  primeG := if codeLength M ≤ indexXor c then none else some (parity (correctedWord c) ^^ bitAt (correctedWord c) 0)
  result := normalResult M c

theorem normalCall_working_of_lt {M : Nat} {c : BitSeq} (h : indexXor c < codeLength M) :
    (normalCall M c).working = some (correctedWord c) := if_neg h.not_ge

/-- R157, R159 on a word of `N` bits. -/
theorem finishCall_of_admitted {M : Nat} {w : BitSeq} (ha : Admitted M) (hw : w.length = codeLength M)
    (call : DecodeCall) :
    finishCall M call w = .ok
      { call with
        fsm := call.fsm ++ [.globalParityCheck, if parity w then .uncorrectableParityMismatch else .success]
        working := some w
        primeG := some (parity w ^^ bitAt w 0)
        result := if parity w then .err .globalParityMismatch else .ok (messageBits M w) } := by
  rw [messageBits_eq ha hw]
  exact finishCall_eq call (hw ▸ codeLength_pos M) (hw ▸ length_messagePositions_of_admitted ha)

/-- The normal path completes with `normalCall`, whichever class the syndrome falls in. -/
theorem decodeNormal_eq_normalCall {M : Nat} {c : BitSeq} (ha : Admitted M) (hc : c.length = codeLength M) :
    decodeNormal M c = .ok (normalCall M c) := by
  rw [decodeNormal_eq ha hc, syndromeOf_checks ha hc, classifyCall, hc]
  by_cases hrange : codeLength M ≤ indexXor c
  · have hne : indexXor c ≠ 0 := fun h0 => by have := codeLength_pos M; omega
    simp [normalCall, normalFsm, normalResult, hrange, hne, hrange.not_gt]
  · have hlt : indexXor c < codeLength M := by omega
    by_cases h0 : indexXor c = 0
    · have hword : correctedWord c = c := if_pos h0
      rw [if_pos h0, finishCall_of_admitted ha hc]
      simp [normalCall, normalFsm, normalResult, h0, hword, (codeLength_pos M).ne']
    · have hword : correctedWord c = flipAt c (indexXor c) := if_neg h0
      rw [if_neg h0, if_pos hlt, toggleBit_eq (hc ▸ hlt), except_ok_bind,
        finishCall_of_admitted ha ((length_flipAt c _).trans hc)]
      simp [normalCall, normalFsm, normalResult, hrange, h0, hword]

theorem decodeCall_of_isZero {c : BitSeq} (M : Nat) (h : isZero c = true) :
    decodeCall M c = .ok
      { fsm := [.start, .success], orig := none, prime := none, syndrome := none, working := none, primeG := none,
        result := .ok c } := if_pos h

theorem decodeCall_of_not_isZero {M : Nat} {c : BitSeq} (ha : Admitted M) (hc : c.length = codeLength M)
    (h : isZero c = false) : decodeCall M c = .ok (normalCall M c) := by
  rw [decodeCall, h, if_neg Bool.false_ne_true, decodeNormal_eq_normalCall ha hc]

/-! ### Words with a set bit (R152 to R160) -/

/-- `DEC` of a word with a set bit writes what the normal path returns. -/
theorem exec_dec_of_not_isZero {s : State} {c : BitSeq} (ha : Admitted s.messageLength)
    (hc : c.length = codeLength s.messageLength) (h : isZero c = false) :
    exec (.dec c) s = .next (writeDecRes s (normalResult s.messageLength c)) :=
  execDec_of_decodeCodeword ha hc (decodeCodeword_of_decodeCall (decodeCall_of_not_isZero ha hc h))

theorem writeDecRes_ok (s : State) (r : BitSeq) :
    writeDecRes s (.ok r) = { s with
      decRes :=
        { valid := true, status := some .ok, len := some r.length,
          data := some (zext (codeLength s.messageLength) r) } } := rfl

/-- Settles O25: `normalResult` case by case, each written by `writeDecRes`. -/
theorem decWritesOutcome : Obligations.DecWritesOutcome := by
  intro s c ha hc hnonzero
  have hword : (if indexXor c = 0 then c else flipAt c (indexXor c)) = correctedWord c := rfl
  simp only [hword]
  rw [exec_dec_of_not_isZero ha hc hnonzero]
  by_cases hrange : codeLength s.messageLength ≤ indexXor c
  · rw [normalResult_of_range hrange, if_pos hrange]
    rfl
  · have hlt : indexXor c < codeLength s.messageLength := by omega
    rw [if_neg hrange]
    by_cases hodd : popcount (correctedWord c) % 2 = 1
    · rw [normalResult_of_odd hlt (parity_eq_true_iff.mpr hodd), if_pos hodd]
      rfl
    · have heven : parity (correctedWord c) = false := Bool.eq_false_iff.mpr (mt parity_eq_true_iff.mp hodd)
      rw [normalResult_of_even hlt heven, if_neg hodd, writeDecRes_ok, length_messageBits]
      rfl

/-- Settles O26: the record holds `receivedChecks` and `recomputedChecks`, whose bits are known. -/
theorem syndromeFromCheckBits : Obligations.SyndromeFromCheckBits := by
  intro M c ha hc hnonzero
  have hlen : (recomputedChecks M c).length = (receivedChecks M c).length := by simp [length_receivedChecks ha]
  have hbound : val (xorSeq (recomputedChecks M c) (receivedChecks M c)) < 2 ^ checkCount M := by
    have hlt := val_lt (xorSeq (recomputedChecks M c) (receivedChecks M c))
    rwa [length_xorSeq, ← hlen, Nat.min_self, length_recomputedChecks] at hlt
  have hsyndrome := syndromeOf_checks ha hc
  refine ⟨normalCall M c, receivedChecks M c, recomputedChecks M c, indexXor c, decodeCall_of_not_isZero ha hc hnonzero,
    rfl, rfl, rfl, length_receivedChecks ha c, length_recomputedChecks M c, fun t ht => bitAt_receivedChecks ha c ht,
    fun t ht => bitAt_recomputedChecks c ht, hsyndrome.symm, fun t _ => ?_, ?_⟩
  · rw [← hsyndrome, testBit_syndromeOf hlen]
  · rw [← hsyndrome]
    exact Nat.le_sub_one_of_lt hbound

/-- Settles O27: the syndrome of the record, its digits by `testBit_foldr_xor`, and linearity with 0 for the codeword. -/
theorem syndromeIsIndexXor : Obligations.SyndromeIsIndexXor := by
  refine ⟨fun M c ha hc hnonzero => ⟨_, decodeCall_of_not_isZero ha hc hnonzero, rfl⟩,
    fun c t => testBit_foldr_xor (setPositions c) t, fun M v e ha hv he => ?_⟩
  have hvlen : v.length = codeLength M := (isCodeword_iff.mp hv).1
  have hv0 : indexXor v = 0 := ((isCodeword_iff_indexXor ha hvlen).mp hv).1
  rw [indexXor_xorSeq (hvlen.trans he.symm), hv0, Nat.zero_xor]

/-- Settles O28: the parity of the whole word is `G` and the parity of the rest. -/
theorem globalParityCheck : Obligations.GlobalParityCheck := by
  intro w hw
  constructor
  · rw [adjustedParity_eq hw, parity_eq_first_xor hw, Bool.xor_comm, ← Bool.xor_assoc, Bool.xor_self, Bool.false_xor]
  · rw [ne_comm, ne_eq, globalParity_iff_even hw, Nat.mod_two_not_eq_zero]

/-! ### The all-zero word (R151) -/

theorem correctedWord_zeros (n : Nat) : correctedWord (zeros n) = zeros n := if_pos (indexXor_zeros n)

theorem messageBits_zeros (M n : Nat) : messageBits M (zeros n) = zeros M :=
  bitSeq_ext (by simp) fun t ht => by
    rw [messageBits, bitAt_map_range _ (by simpa using ht), bitAt_zeros, bitAt_zeros]

theorem normalResult_zeros (M : Nat) : normalResult M (zeros (codeLength M)) = .ok (zeros M) := by
  rw [normalResult_of_even (by rw [indexXor_zeros]; exact codeLength_pos M) (by rw [correctedWord_zeros, parity_zeros]),
    correctedWord_zeros, messageBits_zeros]

/-- Settles O24: the fast path returns the word itself; the normal path is `normalCall` on `zeros N`. -/
theorem decZeroFastPath : Obligations.DecZeroFastPath := by
  intro s c ha hc hzero
  obtain rfl : c = zeros (codeLength s.messageLength) := hc ▸ eq_zeros_of_isZero hzero
  have hdecode := decodeCodeword_of_decodeCall (decodeCall_of_isZero s.messageLength hzero)
  refine ⟨hdecode, ⟨_, decodeNormal_eq_normalCall ha hc, ?_, ?_, normalResult_zeros _⟩, ?_⟩
  · rw [normalCall, indexXor_zeros]
  · simp [normalCall, indexXor_zeros, correctedWord_zeros, (codeLength_pos _).ne']
  · have hexec := execDec_of_decodeCodeword ha hc hdecode
    rwa [writeDecRes_ok, hc, zext_of_length hc] at hexec

/-! ### The state machine (R162) -/

/-- R162: the terminal state that reports a status. -/
def terminalState : Status → FsmState
  | .ok => .success
  | .syndromeOutOfRange => .uncorrectableRange
  | .globalParityMismatch => .uncorrectableParityMismatch

theorem fsmNext_terminalState (st : Status) (z g : Bool) (S n : Nat) : fsmNext z S n g (terminalState st) = none := by
  cases st <;> rfl

theorem terminalState_inj {a b : Status} : terminalState a = terminalState b ↔ a = b := by
  cases a <;> cases b <;> decide

theorem getLast?_normalFsm (M : Nat) (c : BitSeq) :
    (normalFsm M c).getLast? = some (terminalState (resultStatus (normalResult M c))) := by
  unfold normalFsm
  by_cases hrange : codeLength M ≤ indexXor c
  · rw [normalResult_of_range hrange, if_pos hrange]
    rfl
  · have hlt : indexXor c < codeLength M := by omega
    rw [if_neg hrange]
    cases hparity : parity (correctedWord c) with
    | true =>
      rw [normalResult_of_odd hlt hparity]
      rfl
    | false =>
      rw [normalResult_of_even hlt hparity]
      rfl

/-- R157: the check compares the adjusted parity with `G`, which holds exactly at even weight. -/
theorem xor_beq_right (a b : Bool) : ((a ^^ b) == b) = !a := by cases a <;> cases b <;> rfl

theorem normalFsm_eq_fsmPath {M : Nat} {c : BitSeq} (g : Bool)
    (hg : indexXor c < codeLength M → g = !parity (correctedWord c)) :
    normalFsm M c = fsmPath (fsmNext false (indexXor c) (codeLength M) g) 9 .start := by
  unfold normalFsm
  by_cases hrange : codeLength M ≤ indexXor c
  · have hne : indexXor c ≠ 0 := fun h0 => by have := codeLength_pos M; omega
    simp [fsmPath, fsmNext, hrange, hne, hrange.not_gt]
  · have hlt : indexXor c < codeLength M := by omega
    rw [hg hlt, if_neg hrange]
    by_cases h0 : indexXor c = 0
    · cases parity (correctedWord c) <;> simp [fsmPath, fsmNext, h0]
    · cases parity (correctedWord c) <;> simp [fsmPath, fsmNext, h0, hlt]

/-- R162: the all-zero word goes straight to `Success`; every other word goes `normalFsm`. -/
theorem decodeCall_follows_fsmPath {M : Nat} {c : BitSeq} (ha : Admitted M) (hc : c.length = codeLength M) :
    ∃ call, decodeCall M c = .ok call ∧
      call.fsm = fsmPath (fsmNext (isZero c) (call.syndrome.getD 0) (codeLength M)
        (call.primeG == call.working.map (bitAt · 0))) 9 .start ∧
      call.fsm.getLast? = some (terminalState (resultStatus call.result)) := by
  cases hzero : isZero c with
  | true => exact ⟨_, decodeCall_of_isZero M hzero, rfl, rfl⟩
  | false =>
    refine ⟨_, decodeCall_of_not_isZero ha hc hzero, normalFsm_eq_fsmPath _ fun hlt => ?_, getLast?_normalFsm M c⟩
    simp [normalCall, hlt.not_ge, xor_beq_right]

/-- Settles O29: a call ends in the terminal state of its status, and different statuses have different ones. -/
theorem decoderFollowsStateMachine : Obligations.DecoderFollowsStateMachine := by
  intro M c ha hc
  obtain ⟨call, hcall, hpath, hlast⟩ := decodeCall_follows_fsmPath ha hc
  exact ⟨call, _, hcall, hpath, hlast, fsmNext_terminalState _, terminalState_inj (b := .ok),
    terminalState_inj (b := .syndromeOutOfRange), terminalState_inj (b := .globalParityMismatch)⟩

end Sys2Proof.Machine
end

section
/-! PROOFS. What `DEC` does with an encoded message and up to three flipped bits (spec/42_decoder.md R163 to R166): a codeword has
index exclusive-or 0 and even weight, and every flipped bit adds its index and changes the parity. -/

namespace Sys2Proof.Machine

/-! ### Encoded messages (R163) -/

theorem indexXor_encodedWord {M : Nat} (ha : Admitted M) (m : BitSeq) : indexXor (encodedWord M m) = 0 :=
  ((isCodeword_iff_indexXor ha (length_encodedWord M m)).mp (isCodeword_encodedWord M m)).1

theorem parity_encodedWord {M : Nat} (ha : Admitted M) (m : BitSeq) : parity (encodedWord M m) = false :=
  parity_eq_false_iff.mpr ((isCodeword_iff_indexXor ha (length_encodedWord M m)).mp (isCodeword_encodedWord M m)).2

theorem messageBits_encodedWord {M : Nat} {m : BitSeq} (ha : Admitted M) (hm : m.length = M) :
    messageBits M (encodedWord M m) = m :=
  bitSeq_ext (by simp [hm]) fun t ht => by
    have htM : t < M := by simpa using ht
    rw [messageBits, bitAt_map_range _ htM, bitAt_encodedWord_slot ha hm htM]

/-- A word that the correction turns into the codeword of `m` decodes to `m`. -/
theorem normalResult_of_correctedWord {M : Nat} {c m : BitSeq} (ha : Admitted M) (hm : m.length = M)
    (hS : indexXor c < codeLength M) (hword : correctedWord c = encodedWord M m) : normalResult M c = .ok m := by
  rw [normalResult_of_even hS (by rw [hword, parity_encodedWord ha]), hword, messageBits_encodedWord ha hm]

/-- The call record of `DEC` on a word with a set bit, and what the operation writes on the state after an `ENC`. -/
theorem exec_dec_after_enc {s : State} {m c : BitSeq} (ha : Admitted s.messageLength) (hm : m.length = s.messageLength)
    (hc : c.length = codeLength s.messageLength) (hnonzero : isZero c = false) :
    ∃ t u, exec (.enc m) s = .next t ∧ t.encRes.data = some (encodedWord s.messageLength m) ∧ exec (.dec c) t = .next u ∧
      decodeCall s.messageLength c = .ok (normalCall s.messageLength c) ∧
      u.decRes = (writeDecRes s (normalResult s.messageLength c)).decRes := by
  obtain ⟨t, hexec, hdata⟩ := exec_enc_data ha hm
  have hM : t.messageLength = s.messageLength := exec_messageLength hexec
  refine ⟨t, _, hexec, hdata, exec_dec_of_not_isZero (hM ▸ ha) (hM ▸ hc) hnonzero,
    decodeCall_of_not_isZero ha hc hnonzero, ?_⟩
  rw [hM]
  exact writeDecRes_decRes_congr hM.symm _

/-- Settles O30: a codeword has syndrome 0 and is not corrected; the all-zero one takes the fast path. -/
theorem roundTrip : Obligations.RoundTrip := by
  intro s m ha hm
  cases hzero : isZero m with
  | true =>
    obtain ⟨t, henc, hdata⟩ := exec_enc_data ha hm
    have hM : t.messageLength = s.messageLength := exec_messageLength henc
    rw [encodedWord_of_isZero ha hm hzero] at hdata
    have hdec := (decZeroFastPath t _ (hM ▸ ha) (by rw [hM, length_zeros]) (isZero_zeros _)).2.2
    refine ⟨t, _, _, henc, hdata, hdec, ?_⟩
    rw [if_pos rfl, zext_of_isZero hm hzero, hM]
  | false =>
    have hnonzero : isZero (encodedWord s.messageLength m) = false :=
      Bool.eq_false_iff.mpr fun h => Bool.eq_false_iff.mp hzero (isZero_of_isZero_encodedWord ha hm h)
    have hxor := indexXor_encodedWord ha m
    have hresult : normalResult s.messageLength (encodedWord s.messageLength m) = .ok m :=
      normalResult_of_correctedWord ha hm (hxor ▸ codeLength_pos _) (if_pos hxor)
    obtain ⟨t, u, henc, hdata, hdec, -, hres⟩ := exec_dec_after_enc ha hm (length_encodedWord _ m) hnonzero
    refine ⟨t, _, u, henc, hdata, hdec, ?_⟩
    rw [hres, hresult, writeDecRes_decRes_ok, hm, if_neg Bool.false_ne_true]

/-! ### One flipped bit (R164) -/

theorem indexXor_flipAt_encodedWord {M p : Nat} {m : BitSeq} (ha : Admitted M) (hp : p < codeLength M) :
    indexXor (flipAt (encodedWord M m) p) = p := by
  rw [indexXor_flipAt (by simpa using hp), indexXor_encodedWord ha, Nat.zero_xor]

theorem parity_flipAt_encodedWord {M p : Nat} {m : BitSeq} (ha : Admitted M) (hp : p < codeLength M) :
    parity (flipAt (encodedWord M m) p) = true := by
  rw [parity_flipAt (by simpa using hp), parity_encodedWord ha, Bool.not_false]

/-- R164: the syndrome names the flipped position, unless that is position 0. -/
theorem correctedWord_flipAt_encodedWord {M p : Nat} {m : BitSeq} (ha : Admitted M) (hp : p < codeLength M) :
    correctedWord (flipAt (encodedWord M m) p)
      = if p = 0 then flipAt (encodedWord M m) 0 else encodedWord M m := by
  rw [correctedWord, indexXor_flipAt_encodedWord ha hp]
  split_ifs with h0
  · rw [h0]
  · exact flipAt_flipAt (by simpa using hp)

/-- Settles O31: the syndrome is `p`; flipping it back restores the codeword, and for `p = 0` the odd weight remains. -/
theorem singleFlips : Obligations.SingleFlips := by
  intro s m p ha hm hp
  have hxor := indexXor_flipAt_encodedWord (m := m) ha hp
  have hodd := parity_flipAt_encodedWord (m := m) ha hp
  have hword := correctedWord_flipAt_encodedWord (m := m) ha hp
  have hnonzero := not_isZero_of_parity hodd
  obtain ⟨t, u, henc, hdata, hdec, hcall, hres⟩ := exec_dec_after_enc ha hm (by simp) hnonzero
  refine ⟨t, _, u, _, henc, hdata, hdec, hnonzero, hcall, congrArg some hxor, ?_⟩
  rw [normalCall_working_of_lt (hxor.trans_lt hp), hres]
  by_cases h0 : p = 0
  · subst h0
    rw [if_pos rfl] at hword
    rw [if_pos rfl, normalResult_of_odd (hxor.trans_lt hp) (by rw [hword, hodd]), hword]
    exact ⟨rfl, parity_eq_true_iff.mp hodd, rfl⟩
  · rw [if_neg h0] at hword
    rw [if_neg h0, normalResult_of_correctedWord ha hm (hxor.trans_lt hp) hword, hword, writeDecRes_decRes_ok, hm]
    exact ⟨rfl, parity_eq_false_iff.mp (parity_encodedWord ha m), rfl⟩

/-! ### Two flipped bits (R165) -/

theorem indexXor_flipAt_flipAt_encodedWord {M p q : Nat} {m : BitSeq} (ha : Admitted M) (hp : p < codeLength M)
    (hq : q < codeLength M) :
    indexXor (flipAt (flipAt (encodedWord M m) p) q) = p ^^^ q := by
  rw [indexXor_flipAt (by simpa using hq), indexXor_flipAt_encodedWord ha hp]

theorem parity_flipAt_flipAt_encodedWord {M p q : Nat} {m : BitSeq} (ha : Admitted M) (hp : p < codeLength M)
    (hq : q < codeLength M) :
    parity (flipAt (flipAt (encodedWord M m) p) q) = false := by
  rw [parity_flipAt (by simpa using hq), parity_flipAt_encodedWord ha hp, Bool.not_true]

/-- R165: a word of even weight with a nonzero syndrome in range has odd weight once position `S` is flipped. -/
theorem parity_correctedWord_of_even {c : BitSeq} (hS : indexXor c < c.length) (hne : indexXor c ≠ 0)
    (heven : parity c = false) : parity (correctedWord c) = true := by
  rw [correctedWord, if_neg hne, parity_flipAt hS, heven, Bool.not_false]

/-- R165: a word of even weight with a nonzero syndrome ends in an error, in range or not. -/
theorem normalResult_of_even_of_ne_zero {M : Nat} {c : BitSeq} (hc : c.length = codeLength M) (hne : indexXor c ≠ 0)
    (heven : parity c = false) :
    normalResult M c
      = .err (if codeLength M ≤ indexXor c then .syndromeOutOfRange else .globalParityMismatch) := by
  by_cases hrange : codeLength M ≤ indexXor c
  · rw [normalResult_of_range hrange, if_pos hrange]
  · have hlt : indexXor c < codeLength M := by omega
    rw [normalResult_of_odd hlt (parity_correctedWord_of_even (hc ▸ hlt) hne heven), if_neg hrange]

/-- The exclusive or of two numbers other than 0 is neither of them. -/
theorem xor_ne_left_and_right {p q : Nat} (hp : p ≠ 0) (hq : q ≠ 0) : p ^^^ q ≠ p ∧ p ^^^ q ≠ q :=
  ⟨fun h => hq (Nat.xor_right_injective (h.trans (Nat.xor_zero p).symm)),
    fun h => hp (Nat.xor_left_injective (h.trans (Nat.zero_xor q).symm))⟩

/-- Settles O32: two flips keep the weight even and make the syndrome nonzero, so the "correction" makes the weight odd. -/
theorem doubleFlipsDetected : Obligations.DoubleFlipsDetected := by
  refine ⟨fun s m p q ha hm hpq hq => ?_, by decide, by decide⟩
  have hxor := indexXor_flipAt_flipAt_encodedWord (m := m) ha (hpq.trans hq) hq
  have heven := parity_flipAt_flipAt_encodedWord (m := m) ha (hpq.trans hq) hq
  have hS : p ^^^ q ≠ 0 := Nat.xor_ne_zero_iff.mpr hpq.ne
  have hne : indexXor (flipAt (flipAt (encodedWord s.messageLength m) p) q) ≠ 0 := hxor ▸ hS
  obtain ⟨t, u, henc, hdata, hdec, hcall, hres⟩ := exec_dec_after_enc ha hm (by simp) (not_isZero_of_indexXor_ne_zero hne)
  refine ⟨t, _, u, _, henc, hdata, hdec, hcall, congrArg some hxor, hS, fun h0 => by rw [h0, Nat.zero_xor],
    fun h0 => xor_ne_left_and_right h0 (by omega), fun hlt => ⟨_, normalCall_working_of_lt (hxor.trans_lt hlt), ?_, ?_⟩, ?_⟩
  · rw [correctedWord, if_neg hne, hxor]
  · exact parity_eq_true_iff.mp (parity_correctedWord_of_even (by simpa [hxor] using hlt) hne heven)
  · rw [hres, normalResult_of_even_of_ne_zero (by simp) hne heven, hxor, writeDecRes_decRes_err]
    split_ifs <;> rfl

/-! ### Three flipped bits (R166) -/

/-- Settles O33: the rule's example, evaluated; the state counts only by its `M`. -/
theorem tripleFlipExample : Obligations.TripleFlipExample := by
  refine ⟨by decide, by decide, by decide, ?_, by decide, fun s hs => ?_⟩
  · exact ⟨normalCall 8 (seq 13 0x00E9), by decide, by decide, by decide⟩
  · have hdecode : decodeCodeword s.messageLength (seq 13 0x00E9) = .ok (.ok (seq 8 0x07)) := by rw [hs]; decide
    have hexec := execDec_of_decodeCodeword (by rw [hs]; decide) (by rw [hs]; decide) hdecode
    have hdata : zext (codeLength s.messageLength) (seq 8 0x07) = seq 13 0x0007 := by rw [hs]; decide
    rwa [writeDecRes_ok, hdata, length_seq] at hexec

end Sys2Proof.Machine
end

section
/-! PROOFS. When the machine stops with a fault (spec/60_exceptions.md R184, R185): an operation never does, and a step only on the
host's read of a field that holds no value, which on a well-formed state (spec/10_state.md R35) its latch's `valid` and `status`
tell. -/

namespace Sys2Proof.Machine

/-! ### Accesses (R184) -/

theorem readBit_fault_iff {x : BitSeq} {i : Nat} : readBit x i = .error .indexFault ↔ x.length ≤ i := by
  refine ⟨fun h => Nat.le_of_not_lt fun hlt => ?_, readBit_fault⟩
  rw [readBit_eq hlt] at h
  cases h

theorem writeBit_fault_iff {x : BitSeq} {i : Nat} (b : Bool) :
    writeBit x i b = .error .indexFault ↔ x.length ≤ i := by
  refine ⟨fun h => Nat.le_of_not_lt fun hlt => ?_, fun h => if_neg h.not_gt⟩
  rw [writeBit_eq b hlt] at h
  cases h

/-! ### What can end in a fault -/

/-- An operation is refused on an `M` that is not admitted or an operand of another width, and completes otherwise. -/
theorem exec_ne_fault (i : Instr) (s : State) (f : Fault) : exec i s ≠ .fault f := by
  by_cases ha : Admitted s.messageLength
  · by_cases hi : WellFormed s.messageLength i
    · obtain ⟨t, ht⟩ := exec_completes ha hi
      rw [ht]
      nofun
    · rw [exec_of_not_wellFormed ha hi]
      nofun
  · rw [exec_of_not_admitted ha]
    nofun

theorem issueRequest_ne_fault (w : BitSeq) (s : State) (f : Fault) : issueRequest w s ≠ .fault f := by
  cases hd : decode s.messageLength w with
  | ok i =>
    rw [issueRequest_of_decode hd]
    exact exec_ne_fault i s f
  | error why =>
    rw [issueRequest_of_decode_error hd]
    nofun

theorem readFields_fault {fs : List Field} {s : State} {f : Fault} (h : readFields fs s = .fault f) :
    f = .hostReadOfNoValue := by
  induction fs generalizing s with
  | nil => cases h
  | cons g fs ih =>
    rw [readFields] at h
    split at h
    · exact ih h
    · exact (Host.Outcome.fault.inj h).symm

/-- Everything an event can do when it faults. -/
theorem runEvent_fault {e : HostEvent} {s : State} {f : Fault} (h : runEvent e s = .fault f) :
    f = .hostReadOfNoValue := by
  cases e with
  | request w => exact absurd h (issueRequest_ne_fault w s f)
  | readField g => exact readFields_fault h
  | readLatch l => exact readFields_fault h
  | reset cut => cases h

/-- Everything a step can do when it faults. -/
theorem step_fault {s : State} {f : Fault} (h : step s = .fault f) : f = .hostReadOfNoValue := by
  unfold step at h
  split at h
  · split at h
    · cases h
    · exact runEvent_fault h
  · cases h

/-- Settles O38: an operation completes or is refused, and the one fault a step can end in is the host's read. -/
theorem indexFaultUnreachable : Obligations.IndexFaultUnreachable := by
  refine ⟨fun _ _ => readBit_fault_iff, fun _ _ b => writeBit_fault_iff b, exec_ne_fault, fun s h => ?_⟩
  cases step_fault h

/-! ### Reads of a field that holds no value (R35, R185) -/

theorem step_readField_fault_iff {s : State} {f : Field} {rest : List HostEvent} (ha : Admitted s.messageLength)
    (hp : s.program = .readField f :: rest) :
    step s = .fault .hostReadOfNoValue ↔ fieldValue s f = none := by
  cases hv : fieldValue s f with
  | some v => simp [step_readField ha hp hv]
  | none =>
    have hnone : fieldValue { s with program := rest } f = none := (fieldValue_host s rest s.reads f).trans hv
    exact iff_of_true ((step_cons ha hp).trans (readFields_of_none ⟨f, List.mem_singleton_self f, hnone⟩)) rfl

/-- R35: `ENC_RES` holds both fields or neither, as `valid` tells. -/
theorem encLatchOk_none_iff {M : Nat} {l : EncLatch} (h : encLatchOk M l = true) :
    (l.len = none ↔ l.valid = false) ∧ (l.data = none ↔ l.valid = false) := by
  unfold encLatchOk at h
  split at h
  · simp [*]
  · simp [*]
  · cases h

/-- R34, R35: `DEC_RES` holds a status exactly when it is valid, and a payload exactly when that status is OK. -/
theorem decLatchOk_none_iff {M : Nat} {l : DecLatch} (h : decLatchOk M l = true) :
    (l.status = none ↔ l.valid = false) ∧ (l.len = none ↔ l.valid = false ∨ l.status ≠ some .ok) ∧
      (l.data = none ↔ l.valid = false ∨ l.status ≠ some .ok) := by
  unfold decLatchOk at h
  split at h
  · simp [*]
  · simp [*]
  · simp [*]
  · simp [*]
  · cases h

/-- Settles O46: the read faults exactly when the field holds no value, which the invariant reads off `valid` and `status`. -/
theorem readOfNoValueFaults : Obligations.ReadOfNoValueFaults := by
  intro s f rest hs hp
  obtain ⟨ha, henc, hdec⟩ := stateOk_iff.mp hs
  obtain ⟨hencLen, hencData⟩ := encLatchOk_none_iff henc
  obtain ⟨hstatus, hdecLen, hdecData⟩ := decLatchOk_none_iff hdec
  rw [step_readField_fault_iff ha hp]
  cases f with
  | encValid => simp [fieldValue]
  | encLen => exact Option.map_eq_none_iff.trans hencLen
  | encData => exact Option.map_eq_none_iff.trans hencData
  | decValid => simp [fieldValue]
  | decStatus => exact Option.map_eq_none_iff.trans hstatus
  | decLen => exact Option.map_eq_none_iff.trans hdecLen
  | decData => exact Option.map_eq_none_iff.trans hdecData

end Sys2Proof.Machine
end

section
/-! PROOFS. Which status a `DEC` reports (spec/60_exceptions.md R181, R182, R187), and that a later request to the same unit
overwrites it, so no error is sticky (R189, R204). -/

namespace Sys2Proof.Machine

/-! ### A later request overwrites (R189, R204) -/

@[simp] theorem writeEncRes_writeEncRes (s : State) (r r' : BitSeq) :
    writeEncRes (writeEncRes s r) r' = writeEncRes s r' := rfl

@[simp] theorem writeDecRes_writeDecRes (s : State) (d d' : DecodeResult) :
    writeDecRes (writeDecRes s d) d' = writeDecRes s d' := by cases d <;> cases d' <;> rfl

/-- R37: the port's check of an operand reads `M` alone. -/
theorem portOperand_congr {s u : State} (h : s.messageLength = u.messageLength) (width : Nat) (x : BitSeq) :
    portOperand s width x = portOperand u width x := by rw [portOperand, h, portOperand]

theorem execEnc_writeEncRes (m : BitSeq) (s : State) (r : BitSeq) : execEnc m (writeEncRes s r) = execEnc m s := by
  have hoperand : messageOperand (writeEncRes s r) m = messageOperand s m := portOperand_congr rfl _ m
  simp only [execEnc, hoperand, writeEncRes_messageLength, writeEncRes_writeEncRes]

theorem execDec_writeDecRes (c : BitSeq) (s : State) (d : DecodeResult) :
    execDec c (writeDecRes s d) = execDec c s := by
  have hM := writeDecRes_messageLength s d
  have hoperand : codewordOperand (writeDecRes s d) c = codewordOperand s c := by
    rw [codewordOperand, hM, portOperand_congr hM, codewordOperand]
  simp only [execDec, hoperand, hM, writeDecRes_writeDecRes]

/-- Settles O42: a completed request has written its unit's latch alone, and the later request's write covers it. -/
theorem laterRequestOverwrites : Obligations.LaterRequestOverwrites := by
  intro i j s t hunit h
  match i, j, hunit with
  | .enc _, .enc m, _ =>
    obtain ⟨-, -, r, -, rfl⟩ := execEnc_next h
    exact execEnc_writeEncRes m s r
  | .dec _, .dec c, _ =>
    obtain ⟨-, -, d, -, rfl⟩ := execDec_next h
    exact execDec_writeDecRes c s d

/-! ### The status of a `DEC` (R181, R182, R187) -/

theorem writeDecRes_status (s : State) (d : DecodeResult) :
    (writeDecRes s d).decRes.status = some (resultStatus d) := by cases d <;> rfl

/-- R34, R35: an error has no payload. -/
theorem writeDecRes_no_payload {s : State} {d : DecodeResult} (h : resultStatus d ≠ .ok) :
    (writeDecRes s d).decRes.len = none ∧ (writeDecRes s d).decRes.data = none := by
  cases d with
  | ok r => exact absurd rfl h
  | err e => exact ⟨rfl, rfl⟩

/-- R181: the range error is reported exactly when the syndrome names no position. -/
theorem resultStatus_normalResult_eq_range_iff {M : Nat} {c : BitSeq} :
    resultStatus (normalResult M c) = .syndromeOutOfRange ↔ codeLength M ≤ indexXor c := by
  unfold normalResult
  split_ifs <;> simp [*, resultStatus]

/-- R182: the parity mismatch is reported exactly when the range test passes and the corrected word has odd weight. -/
theorem resultStatus_normalResult_eq_mismatch_iff {M : Nat} {c : BitSeq} :
    resultStatus (normalResult M c) = .globalParityMismatch ↔
      indexXor c < codeLength M ∧ popcount (correctedWord c) % 2 = 1 := by
  rw [← parity_eq_true_iff, ← not_le]
  unfold normalResult
  split_ifs <;> simp [*, resultStatus]

/-- R187: no syndrome names a position from `2^K` on. -/
theorem indexXor_lt_two_pow {M : Nat} {c : BitSeq} (ha : Admitted M) (hc : c.length = codeLength M) :
    indexXor c < 2 ^ checkCount M :=
  Nat.lt_pow_two_of_testBit _ fun _ ht => testBit_indexXor_of_checkCount_le ha hc ht

theorem resultStatus_normalResult_of_isZero {M : Nat} {c : BitSeq} (hc : c.length = codeLength M)
    (h : isZero c = true) : resultStatus (normalResult M c) = .ok := by
  rw [eq_zeros_of_isZero h, hc, normalResult_zeros]
  rfl

/-- R150, R151: `DEC` of any word completes, with the status that the normal path reports. -/
theorem exec_dec_resultStatus {s : State} {c : BitSeq} (ha : Admitted s.messageLength)
    (hc : c.length = codeLength s.messageLength) :
    ∃ d, exec (.dec c) s = .next (writeDecRes s d) ∧ resultStatus d = resultStatus (normalResult s.messageLength c) := by
  cases hzero : isZero c with
  | true =>
    refine ⟨.ok c, ?_, (resultStatus_normalResult_of_isZero hc hzero).symm⟩
    exact execDec_of_decodeCodeword ha hc (decZeroFastPath s c ha hc hzero).1
  | false => exact ⟨_, exec_dec_of_not_isZero ha hc hzero, rfl⟩

/-- Settles O36: the status is that of `normalResult`, which tests the range first, then the parity. -/
theorem errorKindCauses : Obligations.ErrorKindCauses := by
  intro s c ha hc
  obtain ⟨d, hexec, hstatus⟩ := exec_dec_resultStatus ha hc
  refine ⟨_, hexec, ?_⟩
  rw [writeDecRes_status, Option.some_inj, Option.some_inj, ne_eq, ne_eq, Option.some_inj, Option.some_inj]
  refine ⟨?_, ?_, fun hzero => ?_, writeDecRes_no_payload, fun hfull => ?_⟩
  · rw [hstatus, resultStatus_normalResult_eq_range_iff]
  · rw [hstatus]
    exact resultStatus_normalResult_eq_mismatch_iff
  · rw [hstatus, resultStatus_normalResult_of_isZero hc hzero]
  · rw [hstatus, resultStatus_normalResult_eq_range_iff, hfull]
    exact (indexXor_lt_two_pow ha hc).not_ge

end Sys2Proof.Machine
end

section
/-! PROOFS. Reset (spec/70_reset_and_hazards.md R200), runs that end (R210, R212), and that a host cannot tell a corrected codeword
from a clean one (R206, R207). -/

namespace Sys2Proof.Machine

/-! ### Reset (R200) -/

/-- R200: a reset event clears both latches, whatever request it cuts short. -/
theorem step_reset {s : State} {cut : Option BitSeq} {rest : List HostEvent} (ha : Admitted s.messageLength)
    (hp : s.program = .reset cut :: rest) : step s = .next (resetInstance { s with program := rest }) :=
  step_cons ha hp

/-- Settles O49: `resetInstance` writes the two latches of R40 and nothing else. -/
theorem resetClearsLatches : Obligations.ResetClearsLatches := fun _ _ _ ha hp => step_reset ha hp

/-! ### Runs end (R210, R212) -/

theorem completes_request_iff {M : Nat} {w : BitSeq} :
    completes M (.request w) = true ↔ ∃ i, decode M w = .ok i := by
  cases hd : decode M w <;> simp [completes, hd]

/-- R40: of the fields, the `valid` bits always hold a value. -/
theorem fieldValue_of_completes {M : Nat} {f : Field} (h : completes M (.readField f) = true) (s : State) :
    ∃ v, fieldValue s f = some v := by
  obtain rfl | rfl : f = .encValid ∨ f = .decValid := by simpa [completes] using h
  · exact ⟨_, rfl⟩
  · exact ⟨_, rfl⟩

/-- R210: an event that the instance always completes takes one step, which takes it off the program. -/
theorem step_completes {s : State} {e : HostEvent} {rest : List HostEvent} (ha : Admitted s.messageLength)
    (hp : s.program = e :: rest) (he : completes s.messageLength e = true) :
    ∃ t, step s = .next t ∧ t.program = rest := by
  cases e with
  | request w =>
    obtain ⟨i, hd⟩ := completes_request_iff.mp he
    obtain ⟨t, hexec⟩ := exec_completes (s := { s with program := rest }) ha (decode_eq_ok_iff.mp hd).1
    exact ⟨t, (step_request ha hp hd).trans hexec, exec_program hexec⟩
  | readField f =>
    obtain ⟨v, hv⟩ := fieldValue_of_completes he s
    exact ⟨_, step_readField ha hp hv, rfl⟩
  | readLatch l => cases he
  | reset cut => exact ⟨_, step_reset ha hp, rfl⟩

/-- R212, by induction over the program: each event takes one step, and the state it leaves is the start of the rest. -/
theorem run_completes (es : List HostEvent) (s : State) (ha : Admitted s.messageLength) (hp : s.program = es)
    (hes : ∀ e ∈ es, completes s.messageLength e = true) :
    ∃ t : State, Host.Core.run core es.length s = .next t ∧ t.program = [] := by
  induction es generalizing s with
  | nil => exact ⟨s, rfl, hp⟩
  | cons e es ih =>
    obtain ⟨he, hrest⟩ := List.forall_mem_cons.mp hes
    obtain ⟨u, hstep, hprogram⟩ := step_completes ha hp he
    have hM : u.messageLength = s.messageLength := step_messageLength hstep
    obtain ⟨t, hrun, ht⟩ := ih u (hM ▸ ha) hprogram (hM ▸ hrest)
    exact ⟨t, (run_succ_of_step hstep _).trans hrun, ht⟩

/-- Settles O56: the run takes every event off the program, so nothing is left to do. -/
theorem runsEnd : Obligations.RunsEnd := by
  intro s ha hes
  obtain ⟨t, hrun, hprogram⟩ := run_completes s.program s ha rfl hes
  exact ⟨t, hrun, List.isEmpty_iff.mpr hprogram⟩

/-! ### A correction is invisible to the host (R206, R207) -/

/-- R155: in a word of index exclusive-or 0 with one flipped bit, position 0 excepted, the correction undoes the flip. -/
theorem correctedWord_flipAt_of_indexXor {w : BitSeq} {p : Nat} (h : indexXor w = 0) (h1 : 1 ≤ p) (hp : p < w.length) :
    correctedWord (flipAt w p) = w := by
  have hS : indexXor (flipAt w p) = p := by rw [indexXor_flipAt hp, h, Nat.zero_xor]
  rw [correctedWord, hS, if_neg (by omega), flipAt_flipAt hp]

/-- R136: what `DEC` needs to know of a codeword. -/
theorem indexXor_and_parity_of_isCodeword {M : Nat} {w : BitSeq} (ha : Admitted M) (hw : isCodeword M w = true) :
    w.length = codeLength M ∧ indexXor w = 0 ∧ parity w = false := by
  have hlen : w.length = codeLength M := (isCodeword_iff.mp hw).1
  obtain ⟨hxor, heven⟩ := (isCodeword_iff_indexXor ha hlen).mp hw
  exact ⟨hlen, hxor, parity_eq_false_iff.mpr heven⟩

/-- R159: a word with a set bit that the correction turns into `w`, of even weight, decodes to the message bits of `w`. -/
theorem exec_dec_of_correctedWord {s : State} {c w : BitSeq} (ha : Admitted s.messageLength)
    (hc : c.length = codeLength s.messageLength) (hnonzero : isZero c = false)
    (hS : indexXor c < codeLength s.messageLength) (hword : correctedWord c = w) (hparity : parity w = false) :
    exec (.dec c) s = .next (writeDecRes s (.ok (messageBits s.messageLength w))) := by
  rw [exec_dec_of_not_isZero ha hc hnonzero, normalResult_of_even hS (by rw [hword, hparity]), hword]

/-- R163: a codeword that is not all zero is not corrected. -/
theorem exec_dec_codeword {s : State} {w : BitSeq} (ha : Admitted s.messageLength)
    (hw : isCodeword s.messageLength w = true) (hnonzero : isZero w = false) :
    exec (.dec w) s = .next (writeDecRes s (.ok (messageBits s.messageLength w))) := by
  obtain ⟨hlen, hxor, hparity⟩ := indexXor_and_parity_of_isCodeword ha hw
  exact exec_dec_of_correctedWord ha hlen hnonzero (hxor ▸ codeLength_pos _) (if_pos hxor) hparity

/-- R164: a codeword with one flipped bit, position 0 excepted, is corrected; the flip leaves no all-zero word, for its weight is
odd. -/
theorem exec_dec_flipAt_codeword {s : State} {w : BitSeq} {p : Nat} (ha : Admitted s.messageLength)
    (hw : isCodeword s.messageLength w = true) (h1 : 1 ≤ p) (hp : p < codeLength s.messageLength) :
    exec (.dec (flipAt w p)) s = .next (writeDecRes s (.ok (messageBits s.messageLength w))) := by
  obtain ⟨hlen, hxor, hparity⟩ := indexXor_and_parity_of_isCodeword ha hw
  have hpw : p < w.length := hlen ▸ hp
  have hS : indexXor (flipAt w p) < codeLength s.messageLength := by rwa [indexXor_flipAt hpw, hxor, Nat.zero_xor]
  have hnonzero : isZero (flipAt w p) = false := not_isZero_of_parity (by rw [parity_flipAt hpw, hparity, Bool.not_false])
  exact exec_dec_of_correctedWord ha ((length_flipAt w p).trans hlen) hnonzero hS
    (correctedWord_flipAt_of_indexXor hxor h1 hpw) hparity

/-- Settles O35: the corrected word is the codeword again, so both decode to its message bits, except that the all-zero codeword
itself takes the fast path, with its own length. -/
theorem correctionInvisible : Obligations.CorrectionInvisible := by
  intro s w p ha hw h1 hp
  have hflipped := exec_dec_flipAt_codeword ha hw h1 hp
  cases hzero : isZero w with
  | true =>
    have hlen : w.length = codeLength s.messageLength := (isCodeword_iff.mp hw).1
    obtain ⟨-, -, hclean⟩ := decZeroFastPath s w ha hlen hzero
    refine ⟨_, _, hclean, hflipped, rfl, rfl, ?_⟩
    rw [if_pos rfl, eq_zeros_of_isZero hzero, messageBits_zeros, writeDecRes_decRes_ok, length_zeros,
      zext_of_isZero (length_zeros _) (isZero_zeros _)]
    exact ⟨rfl, rfl, rfl, rfl⟩
  | false =>
    refine ⟨_, _, exec_dec_codeword ha hw hzero, hflipped, rfl, rfl, ?_⟩
    rw [if_neg Bool.false_ne_true]

end Sys2Proof.Machine
end

section
/-! PROOFS. The source's one concrete scenario (spec/95_test_vectors.md, V-S1 to V-S4) on the instance `M = 8`: the general rules of
`ENC` and `DEC`, each at the codeword `0x00FF` of the message `0x0F`. -/

namespace Sys2Proof.Machine

/-- What the scenario's payload is: the message bits of `0x00FF` are `0x0F`, zero-extended in the latch. -/
theorem writeDecRes_messageBits_scenario {s : State} (hs : s.messageLength = 8) :
    writeDecRes s (.ok (messageBits s.messageLength (seq 13 0x00FF))) = { s with
      decRes := { valid := true, status := some .ok, len := some 8, data := some (seq 13 0x000F) } } := by
  have hdata : zext (codeLength 8) (messageBits 8 (seq 13 0x00FF)) = seq 13 0x000F := by decide
  rw [writeDecRes_ok, length_messageBits, hs, hdata]

/-- Settles O34: `0x00FF` is the codeword of `0x0F`; with position 5 flipped it is corrected, and with positions 3 and 9 flipped the
weight stays even while the syndrome is `3 ^^^ 9`. -/
theorem sourceScenario : Obligations.SourceScenario := by
  intro s hs
  have ha : Admitted s.messageLength := by rw [hs]; decide
  have hcodeword : isCodeword s.messageLength (seq 13 0x00FF) = true := by rw [hs]; decide
  have hflip : flipAt (seq 13 0x00FF) 5 = seq 13 0x00DF := by decide
  have hclean := exec_dec_codeword ha hcodeword (by decide)
  have hcorrected := exec_dec_flipAt_codeword (p := 5) ha hcodeword (by decide) (by rw [hs]; decide)
  rw [writeDecRes_messageBits_scenario hs] at hclean hcorrected
  refine ⟨?_, hclean, hflip ▸ hcorrected, ?_⟩
  · have hencode : encodeMessage s.messageLength (seq 8 0x0F) = .ok (seq 13 0x00FF) := by rw [hs]; decide
    have hexec := execEnc_of_encodeMessage ha (by rw [hs]; decide) hencode
    rwa [writeEncRes, length_seq, zext_of_length (by rw [hs]; decide)] at hexec
  · have hlen : (seq 13 0x02F7).length = codeLength s.messageLength := by rw [hs]; decide
    have hresult : normalResult s.messageLength (seq 13 0x02F7) = .err .globalParityMismatch := by
      have hsyndrome : indexXor (seq 13 0x02F7) = 3 ^^^ 9 := by decide
      rw [normalResult_of_even_of_ne_zero hlen (by rw [hsyndrome]; decide) (by decide), hsyndrome, hs]
      rfl
    rw [exec_dec_of_not_isZero ha hlen (by decide), hresult]
    rfl

end Sys2Proof.Machine
end
